-- ==== Sys2Proof/Word.lean ====
section
/-! DEFINITION. The word types of the block: 32-bit bus registers (10_state.md R15, 00_scope.md R8) and 8-bit buffer cells (10_state.md R30, R31). -/

namespace Sys2Proof

/-- A bus register's contents, or a command word (00_scope.md R8, 30_encoding.md R53). -/
abbrev Word := BitVec 32

/-- One cell of IN_BUF or OUT_BUF (00_scope.md R8). -/
abbrev Byte := BitVec 8

end Sys2Proof
end

