-- ==== Sys2Proof/Syntax.lean ====
section
/-! DEFINITION. The three commands of the block (30_encoding.md R54), one constructor per row of spec/opcode_table.json. -/

namespace Sys2Proof

/-- A command (30_encoding.md R54). A command word has no operand fields (R53); the operands are L.len and the IN_BUF bit
stream (R55), read by the meanings. -/
inductive Instr where
  /-- RPB: the required parity bit count (41_required_parity_bits.md R78). -/
  | rpb
  /-- ENC: encode a message (42_encode.md R81). -/
  | enc
  /-- DEC: decode a codeword (43_decode.md R90). -/
  | dec
  deriving DecidableEq, Repr

end Sys2Proof
end

