-- ==== Sys2Proof/Config.lean ====
section
/-! DEFINITION. What an instance of the block fixes (K_MAX and BASE, 00_scope.md R7), and the free values the spec leaves open (10_state.md R30, R31, R35; 20_memory.md R52; 40_command.md R67). -/

namespace Sys2Proof.Config

/-- The parameters of one instance (00_scope.md R7). They are plain data of State, so that every statement about the
machine is made for every K_MAX and every BASE (log 1). N_MAX and BUF_BYTES follow from `kMax`
(Sys2Proof.Machine.instanceNMax, Sys2Proof.Machine.instanceBufBytes). -/
structure Params where
  /-- K_MAX: the largest message, in bytes, that ENC accepts. -/
  kMax : Nat
  /-- BASE: the bus address of register offset 0x0000. -/
  base : Nat
  deriving DecidableEq, Repr

/-- DESIGN CHOICE (log 1): the instance `State.reset` takes. K_MAX = 16 is the test instance of 95_test_vectors.md; BASE = 0
is one aligned address among all. The spec leaves both OPEN (00_scope.md R7). -/
def testInstance : Params := { kMax := 16, base := 0 }

/-- FREE VALUE (log 4): what IN_BUF byte `index` holds when no write since the reset named by `epoch` has stored it
(10_state.md R30, 20_memory.md R52). -/
opaque freeInByte (epoch index : Nat) : Byte

/-- FREE VALUE (log 5): what OUT_BUF byte `index` holds when no rule defines it, since the reset or the ENC or DEC
completion named by `epoch` (10_state.md R31, 40_command.md R67). -/
opaque freeOutByte (epoch index : Nat) : Byte

/-- FREE VALUE (log 6): the value of draw `draw`, whose open bits one read of a result register returns while BUSY = 1
(10_state.md R35). -/
opaque freeBusyWord (draw : Nat) : Word

/-- FREE VALUE (log 6): the value of draw `draw`, returned by one read of an OUT_BUF byte while BUSY = 1 (10_state.md R35). -/
opaque freeBusyByte (draw : Nat) : Byte

end Sys2Proof.Config
end

