-- ==== Sys2Proof/WellFormed.lean ====
section
/-! DEFINITION. Which instances, command words and commands are well formed. -/

namespace Sys2Proof

/-- The legal parameters of an instance: 1 ≤ K_MAX ≤ 4094 and BASE aligned to 0x4000 (00_scope.md R7, 70_reset_and_hazards.md
R132). -/
def Config.Params.wf (p : Config.Params) : Bool :=
  1 ≤ p.kMax && p.kMax ≤ 4094 && p.base % 0x4000 == 0

/-- The command words the host may write: RSV, bits [31:4], zero, and OP, bits [3:0], assigned (30_encoding.md R53, R54). -/
def cmdWordWf (w : Word) : Bool :=
  w.extractLsb' 4 28 == 0#28
    && (w.extractLsb' 0 4 == 0x1#4 || w.extractLsb' 0 4 == 0x2#4 || w.extractLsb' 0 4 == 0x3#4)

/-- Every command is well formed: it carries no register field and no immediate that could be out of range
(30_encoding.md R53). -/
def Instr.wf : Instr → Bool
  | .rpb => true
  | .enc => true
  | .dec => true

end Sys2Proof
end

