-- ==== Sys2Proof/Decode.lean ====
section
/-! DEFINITION. The command decoder, total on all 2^32 words (30_encoding.md R57), and the encoder (R54). -/

namespace Sys2Proof

/-- Why a word selects no command (30_encoding.md R56). Both complete with IllegalCommand. -/
inductive IllegalWord where
  /-- RSV, bits [31:4], is not zero. -/
  | reservedNonzero
  /-- RSV is zero and OP, bits [3:0], is 0x0 or 0x4 to 0xF. -/
  | opcodeUnassigned
  deriving DecidableEq, Repr

/-- What a word decodes to (30_encoding.md R57): one of the three commands, or ILLEGAL with its reason. -/
inductive Decoded where
  | command (i : Instr)
  | illegal (why : IllegalWord)
  deriving DecidableEq, Repr

/-- OP, bits [3:0] of a command word (30_encoding.md R53). -/
def opField (w : Word) : BitVec 4 := w.extractLsb' 0 4

/-- RSV, bits [31:4] of a command word (30_encoding.md R53). -/
def rsvField (w : Word) : BitVec 28 := w.extractLsb' 4 28

/-- decodeCmd (30_encoding.md R57). -/
def decodeCmd (w : Word) : Decoded :=
  if rsvField w ≠ 0#28 then .illegal .reservedNonzero
  else if opField w = 0x1#4 then .command .rpb
  else if opField w = 0x2#4 then .command .enc
  else if opField w = 0x3#4 then .command .dec
  else .illegal .opcodeUnassigned

/-- The opcode of a command (30_encoding.md R54). -/
def opcode : Instr → BitVec 4
  | .rpb => 0x1#4
  | .enc => 0x2#4
  | .dec => 0x3#4

/-- The command word: OP in bits [3:0] and RSV = 0 in bits [31:4] (30_encoding.md R53, R54). -/
def encodeCmd (i : Instr) : Word := 0#28 ++ opcode i

/-- The command of a word, none where the word is illegal. -/
def Decoded.instr? : Decoded → Option Instr
  | .command i => some i
  | .illegal _ => none

/-- What the decoder reads from the instruction whose bits are `w`, numbered as spec/opcode_table.json numbers them. A
command is exactly one 32-bit word (30_encoding.md R53), so every bit above `nbits` is zero and a `w` that does not fit a
word is refused (log 24). -/
def decodeTableWord (nbits w : Nat) : Option Instr :=
  if w % 2 ^ nbits < 2 ^ 32 then (decodeCmd (BitVec.ofNat 32 (w % 2 ^ nbits))).instr? else none

end Sys2Proof
end

