-- ==== Sys2Proof/Machine/Geometry.lean ====
section
/-! DEFINITION. Positions, the two parity counts, and the sizes that follow from K_MAX (40_command.md R70, R71; 41_required_parity_bits.md R76; 43_decode.md R93; 00_scope.md R7). Positions are 1-indexed; integers are exact (40_command.md R72). -/

namespace Sys2Proof.Machine

open Sys2Proof.Config

/-- isPow2(p) (40_command.md R70). -/
def isPow2 (p : Nat) : Bool := 1 ≤ p && p &&& (p - 1) == 0

/-- isParityPos(p, n) (40_command.md R70). -/
def isParityPos (p n : Nat) : Bool := isPow2 p && p ≤ n

/-- isDataPos(p, n) (40_command.md R70). -/
def isDataPos (p n : Nat) : Bool := 1 ≤ p && p ≤ n && !isPow2 p

/-- The positions 1..n of a codeword (00_scope.md R9). -/
def positions (n : Nat) : List Nat := List.range' 1 n

/-- dataPos(n), the data positions in ascending order (40_command.md R71). -/
def dataPos (n : Nat) : List Nat := (positions n).filter fun p => !isPow2 p

/-- The loop of requiredParityBits (41_required_parity_bits.md R76): from `r` up, the first r with 2^r ≥ m + r + 1, looking
at most `fuel` steps further. -/
def parityBitsFrom (m : Nat) : Nat → Nat → Nat
  | 0, r => r
  | fuel + 1, r => if 2 ^ r < m + r + 1 then parityBitsFrom m fuel (r + 1) else r

/-- requiredParityBits(m), the encode-side parity count (41_required_parity_bits.md R76). The loop needs at most m more
steps from r = 1, since 2^(m+1) ≥ m + (m + 1) + 1 (log 21). -/
def requiredParityBits (m : Nat) : Nat :=
  if m = 0 then 2 else parityBitsFrom m (m + 1) 1

/-- presentParityBits(n) = floor(log2(n)) + 1 for n ≥ 1, the decode-side parity count (43_decode.md R93); 0 for n = 0, where
no power of two is at most n. -/
def presentParityBits (n : Nat) : Nat :=
  if n = 0 then 0 else Nat.log2 n + 1

/-- N_MAX, the largest codeword, in bits, that DEC accepts (00_scope.md R7). -/
def nMaxOf (kMax : Nat) : Nat := 8 * kMax + requiredParityBits (8 * kMax)

/-- ceil(bits / 8): the bytes that hold a bit stream (00_scope.md R10, 20_memory.md R38). -/
def bytesFor (bits : Nat) : Nat := (bits + 7) / 8

/-- N_MAX of an instance (00_scope.md R7). -/
def instanceNMax (p : Params) : Nat := nMaxOf p.kMax

/-- BUF_BYTES of an instance, the bytes in each of IN_BUF and OUT_BUF (00_scope.md R7). -/
def instanceBufBytes (p : Params) : Nat := bytesFor (instanceNMax p)

end Sys2Proof.Machine
end

