-- ==== Sys2Proof/Machine/State.lean ====
section
/-! DEFINITION. The machine's state as plain data (10_state.md), the events that reach it, its faults, and the state after reset (70_reset_and_hazards.md R129). -/

namespace Sys2Proof.Machine

open Sys2Proof.Config

/-- STATUS.CODE (10_state.md R20). Values 7 to 15 are never produced and have no name here; the 4-bit values are
`StatusCode.value` in Machine/Flags.lean. -/
inductive StatusCode where
  /-- The command completed normally. -/
  | ok
  /-- DEC with n = 0. -/
  | emptyInput
  /-- DEC of a length that no ENC produces. -/
  | structurallyInvalid
  /-- DEC with a syndrome above n. -/
  | unrepairable
  /-- DEC with m mod 8 ≠ 0 after correction. -/
  | alignmentError
  /-- The command word selects no command. -/
  | illegalCommand
  /-- The operand length exceeds K_MAX or N_MAX. -/
  | capacityExceeded
  deriving DecidableEq, Repr

/-- STATUS (10_state.md R19), by its fields; bits [3:2] and [31:8] read 0 and have no storage (log 15). -/
structure Status where
  busy : Bool
  done : Bool
  code : StatusCode
  deriving DecidableEq, Repr

/-- FLAGS (10_state.md R27), by its fields; bits [31:5] read 0 and have no storage (log 15). -/
structure Flags where
  /-- ERR_DET, bit 0. -/
  errDet : Bool
  /-- ERR_COR, bit 1. -/
  errCor : Bool
  /-- POS_VALID, bit 2. -/
  posValid : Bool
  /-- REPAIRABLE, bit 3. -/
  repairable : Bool
  /-- MSG_VALID, bit 4. -/
  msgValid : Bool
  deriving DecidableEq, Repr

/-- The seven result registers (40_command.md R65), which every completion writes together. -/
structure Results where
  /-- OUT_LEN (10_state.md R22). -/
  outLen : Word
  /-- RES_R (10_state.md R23). -/
  resR : Word
  /-- RES_M (10_state.md R24). -/
  resM : Word
  /-- RES_N (10_state.md R25). -/
  resN : Word
  /-- SYNDROME (10_state.md R26). -/
  syndrome : Word
  /-- FLAGS (10_state.md R27). -/
  flags : Flags
  /-- ERR_POS (10_state.md R28). -/
  errPos : Word
  deriving DecidableEq, Repr

/-- The in-flight record L (10_state.md R34). -/
structure InFlight where
  /-- L.valid, which mirrors STATUS.BUSY (log 12). -/
  valid : Bool
  /-- L.op: the CMD value accepted. -/
  op : Word
  /-- L.len: IN_LEN at acceptance. -/
  len : Word
  deriving DecidableEq, Repr

/-- The bytes of one buffer: (byte index, byte), indices strictly rising. An index that is not listed holds NO value here;
the bus and the commands then see a free value (log 4, log 5, log 22). -/
abbrev Memory := List Host.Cell

/-- One bus access of the host (20_memory.md R40, R41): a bus address, a width in bytes, and for a write the value. -/
inductive HostOp where
  | read (addr width : Nat)
  | write (addr width : Nat) (value : Word)
  deriving DecidableEq, Repr

/-- One turn of one agent (40_command.md R61, 70_reset_and_hazards.md R128). -/
inductive Event where
  /-- The host performs a bus access. -/
  | host (op : HostOp)
  /-- The block takes its completion step if that is enabled. -/
  | block
  /-- The reset input is asserted. -/
  | reset
  deriving DecidableEq, Repr

/-- What the bus gave the host in the last step (log 16). -/
inductive Reply where
  /-- No read was performed. -/
  | nothing
  /-- A 32-bit read returned this value. -/
  | word (v : Word)
  /-- An 8-bit read returned this value. -/
  | byte (v : Byte)
  deriving DecidableEq, Repr

/-- The state of the block (10_state.md R13 to R35). The last five fields are the model's own: `inEpoch`, `outEpoch` and
`draws` name free values (log 7), `pending` is what the agents still do (log 2), `reply` is what the bus answered (log 16). -/
structure State where
  /-- K_MAX and BASE of this instance (00_scope.md R7), and with them PARAM (10_state.md R17). Never written. -/
  params : Params
  /-- CMD (10_state.md R18). -/
  cmd : Word
  /-- STATUS (10_state.md R19). -/
  status : Status
  /-- IN_LEN (10_state.md R21). -/
  inLen : Word
  /-- OUT_LEN, RES_R, RES_M, RES_N, SYNDROME, FLAGS, ERR_POS (10_state.md R22 to R28). -/
  results : Results
  /-- IN_BUF (10_state.md R30). -/
  inBuf : Memory
  /-- OUT_BUF (10_state.md R31). -/
  outBuf : Memory
  /-- L, the command in flight (10_state.md R34). -/
  inFlight : InFlight
  /-- Names the draws of the IN_BUF bytes not written since the last reset. -/
  inEpoch : Nat
  /-- Names the draws of the OUT_BUF bytes that no rule defines. -/
  outEpoch : Nat
  /-- The next unused draw. -/
  draws : Nat
  /-- The turns still to come, oldest first. -/
  pending : List Event
  /-- What the bus answered in the last step. -/
  reply : Reply
  deriving DecidableEq, Repr

/-- Why a run of the host is faulted. All are SAFE: the machine stops where some implementation might go on. -/
inductive Fault where
  /-- AccessError(addr), raised by a host access that 20_memory.md R42 declares illegal (60_exceptions.md R112). Safe. -/
  | accessError (addr : Nat)
  /-- HostHazard(addr), raised by a legal write to CMD, IN_LEN or IN_BUF[b < BUF_BYTES] while BUSY = 1
  (60_exceptions.md R113, 70_reset_and_hazards.md R134). Safe. -/
  | hostHazard (addr : Nat)
  /-- Raised by a host access whose address lies outside BASE to BASE+0x3FFF, so that it does not reach this block
  (20_memory.md R36; log 9). Safe. -/
  | outsideWindow (addr : Nat)
  deriving DecidableEq, Repr

/-- Why an instruction has no meaning. No instruction of this model is refused. -/
inductive Refusal where
  /-- Raised by a refused arm of `exec`, for an instruction not modelled yet. Safe. No arm raises it. -/
  | notModelled (mnemonic : String)
  deriving DecidableEq, Repr

/-- FLAGS = 0x00. -/
def Flags.none : Flags :=
  { errDet := false, errCor := false, posValid := false, repairable := false, msgValid := false }

/-- Every result register zero (40_command.md R66, 70_reset_and_hazards.md R129). -/
def Results.zero : Results :=
  { outLen := 0, resR := 0, resM := 0, resN := 0, syndrome := 0, flags := Flags.none, errPos := 0 }

/-- The state right after reset of the instance `p` (70_reset_and_hazards.md R129). The buffers list nothing: every byte is
a free value. The draw numbers, the empty schedule and the empty reply are the model's own (log 2, log 7, log 16). -/
def State.resetWith (p : Params) : State where
  params := p
  cmd := 0
  status := { busy := false, done := false, code := .ok }
  inLen := 0
  results := Results.zero
  inBuf := []
  outBuf := []
  inFlight := { valid := false, op := 0, len := 0 }
  inEpoch := 0
  outEpoch := 0
  draws := 1
  pending := []
  reply := .nothing

/-- The state right after reset of the spec's test instance (log 1). -/
def State.reset : State := State.resetWith testInstance

end Sys2Proof.Machine
end

