-- ==== Sys2Proof/Machine/Flags.lean ====
section
/-! DEFINITION. The values of STATUS, CODE, FLAGS and PARAM as words, and the flag computations of DEC (10_state.md R16 to R20, R27; 43_decode.md R99, R100, R104). -/

namespace Sys2Proof.Machine

open Sys2Proof.Config

/-- The 4-bit value of STATUS.CODE (10_state.md R20). -/
def StatusCode.value : StatusCode → BitVec 4
  | .ok => 0#4
  | .emptyInput => 1#4
  | .structurallyInvalid => 2#4
  | .unrepairable => 3#4
  | .alignmentError => 4#4
  | .illegalCommand => 5#4
  | .capacityExceeded => 6#4

/-- STATUS as the bus reads it: CODE in [7:4], DONE in [1], BUSY in [0], every other bit 0 (10_state.md R19). -/
def Status.word (st : Status) : Word :=
  0#24 ++ st.code.value ++ 0#2 ++ BitVec.ofBool st.done ++ BitVec.ofBool st.busy

/-- FLAGS as the bus reads it: MSG_VALID, REPAIRABLE, POS_VALID, ERR_COR, ERR_DET in [4:0], every other bit 0
(10_state.md R27). -/
def Flags.word (f : Flags) : Word :=
  0#27 ++ BitVec.ofBool f.msgValid ++ BitVec.ofBool f.repairable ++ BitVec.ofBool f.posValid
    ++ BitVec.ofBool f.errCor ++ BitVec.ofBool f.errDet

/-- ID, the constant 0x48414D31 (10_state.md R16). -/
def idWord : Word := 0x48414D31#32

/-- PARAM: N_MAX in [31:16], K_MAX in [15:0] (10_state.md R17). -/
def paramWord (p : Params) : Word :=
  BitVec.ofNat 16 (instanceNMax p) ++ BitVec.ofNat 16 p.kMax

/-- FLAGS of Unrepairable: ERR_DET only (43_decode.md R99). -/
def Flags.unrepairable : Flags := { Flags.none with errDet := true }

/-- FLAGS the locator gives for a syndrome in [0, n] (43_decode.md R100): REPAIRABLE always, and for a nonzero syndrome
ERR_DET, ERR_COR and POS_VALID too. -/
def Flags.located (syn : Nat) : Flags :=
  if syn = 0 then { Flags.none with repairable := true }
  else { errDet := true, errCor := true, posValid := true, repairable := true, msgValid := false }

/-- FLAGS with MSG_VALID set (43_decode.md R104). -/
def Flags.withMessage (f : Flags) : Flags := { f with msgValid := true }

/-- ERR_POS: the syndrome where FLAGS.POS_VALID is set, else 0 (10_state.md R28, 43_decode.md R90). -/
def errPosOf (f : Flags) (syn : Nat) : Word :=
  if f.posValid then BitVec.ofNat 32 syn else 0

end Sys2Proof.Machine
end

