-- ==== Sys2Proof/Machine/Codec.lean ====
section
/-! DEFINITION. The codec's internal functions on bit lists: injector, parity generator, syndrome calculator, corrector, data extractor (42_encode.md R84, R85; 43_decode.md R97, R101, R102). -/

namespace Sys2Proof.Machine

/-- The working copy c[1..n] of a codeword (10_state.md R34): list index p - 1 holds position p (00_scope.md R9). -/
abbrev Codeword := List Bool

/-- c[p], for a position p ≥ 1. -/
def Codeword.bit (c : Codeword) (p : Nat) : Bool := c.getD (p - 1) false

/-- c with c[p] ← b. -/
def Codeword.setBit (c : Codeword) (p : Nat) (b : Bool) : Codeword := c.set (p - 1) b

/-- The exclusive-or of c over the positions ps; 0 over none (40_command.md R72). -/
def Codeword.xorOver (c : Codeword) (ps : List Nat) : Bool :=
  ps.foldl (fun acc p => acc ^^ Codeword.bit c p) false

/-- The injector (42_encode.md R84): every position 0, then d[t] at the t-th data position. -/
def inject (d : List Bool) (n : Nat) : Codeword :=
  ((dataPos n).zip d).foldl (fun c pd => Codeword.setBit c pd.1 pd.2) (List.replicate n false)

/-- Parity bit i (42_encode.md R85): the exclusive-or over the positions with bit i set, without 2^i itself. -/
def parityBit (c : Codeword) (n i : Nat) : Bool :=
  Codeword.xorOver c ((positions n).filter fun p => p.testBit i && p != 2 ^ i)

/-- The parity generator (42_encode.md R85). -/
def generateParity (c : Codeword) (n r : Nat) : Codeword :=
  (List.range r).foldl (fun c i => Codeword.setBit c (2 ^ i) (parityBit c n i)) c

/-- The codeword of the data bits `d` in the geometry n, r (42_encode.md R81, R83). -/
def encodeBits (d : List Bool) (n r : Nat) : Codeword := generateParity (inject d n) n r

/-- Check sum i (43_decode.md R97): the exclusive-or over the positions with bit i set, 2^i included. -/
def checkSum (c : Codeword) (n i : Nat) : Bool :=
  Codeword.xorOver c ((positions n).filter fun p => p.testBit i)

/-- The syndrome calculator (43_decode.md R97): the sum of 2^i over the failing checks. -/
def syndrome (c : Codeword) (n r : Nat) : Nat :=
  (List.range r).foldl (fun s i => if checkSum c n i then s + 2 ^ i else s) 0

/-- The corrector (43_decode.md R101): flips c[s] for s ≠ 0, nothing for s = 0. -/
def correct (c : Codeword) (s : Nat) : Codeword :=
  if s = 0 then c else Codeword.setBit c s (!Codeword.bit c s)

/-- The data extractor (43_decode.md R102): c at the data positions, ascending. -/
def extract (c : Codeword) (n : Nat) : List Bool := (dataPos n).map fun p => Codeword.bit c p

end Sys2Proof.Machine
end

