-- ==== Sys2Proof/Machine/Memory.lean ====
section
/-! DEFINITION. The named operations on a buffer's bytes, kept in one canonical form (10_state.md R30, R31). -/

namespace Sys2Proof.Machine

/-- The byte listed at an index. An index that is not listed has no value: nothing has defined it (log 22). -/
def Memory.read : Memory → Nat → Option Byte
  | [], _ => none
  | (a, b) :: rest, i => if i = a then some b else Memory.read rest i

/-- Store one byte, keeping the indices rising. Storing never lists "no value", so an entry always says more than an
unlisted index does. -/
def Memory.write : Memory → Nat → Byte → Memory
  | [], i, v => [(i, v)]
  | (a, b) :: rest, i, v =>
    if i < a then (i, v) :: (a, b) :: rest
    else if i = a then (i, v) :: rest
    else (a, b) :: Memory.write rest i v

/-- The bytes `bs` at `start`, `start + 1`, … and nothing else. -/
def Memory.fromBytes (start : Nat) : List Byte → Memory
  | [] => []
  | b :: bs => (start, b) :: Memory.fromBytes (start + 1) bs

/-- The canonical form: indices strictly rising. -/
def Memory.wf (m : Memory) : Bool := decide (m.Pairwise fun x y => x.1 < y.1)

/-- Every listed index is below `size`. -/
def Memory.below (m : Memory) (size : Nat) : Bool := m.all fun c => decide (c.1 < size)

end Sys2Proof.Machine
end

