-- ==== Sys2Proof/Machine/Operands.lean ====
section
/-! DEFINITION. The operand forms: the bit stream IN of IN_BUF, the message bits, the codeword; and the MSB-first packing of a bit stream into bytes (20_memory.md R38, R39; 30_encoding.md R55; 42_encode.md R82; 43_decode.md R96, R104). -/

namespace Sys2Proof.Machine

open Sys2Proof.Config

/-- L.len as an exact integer: m of RPB, k of ENC, n of DEC (30_encoding.md R55). -/
def State.operand (s : State) : Nat := s.inFlight.len.toNat

/-- IN_BUF[b] for b < BUF_BYTES: the byte stored there, else a free value (10_state.md R30, 20_memory.md R52; log 4). -/
def State.inByte (s : State) (b : Nat) : Byte :=
  (s.inBuf.read b).getD (freeInByte s.inEpoch b)

/-- OUT_BUF[b] for b < BUF_BYTES: the byte a completion wrote there, else a free value (10_state.md R31, 40_command.md R67;
log 5). -/
def State.outByte (s : State) (b : Nat) : Byte :=
  (s.outBuf.read b).getD (freeOutByte s.outEpoch b)

/-- Bit j of a stream of bytes, MSB first: bit 7 - (j mod 8) of byte j div 8 (20_memory.md R38). -/
def streamBit (byteAt : Nat → Byte) (j : Nat) : Bool := (byteAt (j / 8)).getLsbD (7 - j % 8)

/-- IN[j] (20_memory.md R38). -/
def State.inBit (s : State) (j : Nat) : Bool := streamBit s.inByte j

/-- OUT[j] (20_memory.md R38). -/
def State.outBit (s : State) (j : Nat) : Bool := streamBit s.outByte j

/-- The data serialiser (42_encode.md R82): d[8i + j] is bit 7 - j of message byte i. It is given the stream IN, in which
that bit is IN[8i + j]. -/
def dataBits (k : Nat) (input : Nat → Bool) : List Bool := (List.range (8 * k)).map input

/-- The codeword operand of DEC (43_decode.md R96): c[p] = IN[p-1] for p in 1..n. -/
def loadCodeword (n : Nat) (input : Nat → Bool) : Codeword := (positions n).map fun p => input (p - 1)

/-- One byte of a bit stream, first bit in bit 7 (43_decode.md R104); bits that are missing are 0 (20_memory.md R39). -/
def packByte (bits : List Bool) : Byte :=
  BitVec.ofBool (bits.getD 0 false) ++ BitVec.ofBool (bits.getD 1 false)
    ++ BitVec.ofBool (bits.getD 2 false) ++ BitVec.ofBool (bits.getD 3 false)
    ++ BitVec.ofBool (bits.getD 4 false) ++ BitVec.ofBool (bits.getD 5 false)
    ++ BitVec.ofBool (bits.getD 6 false) ++ BitVec.ofBool (bits.getD 7 false)

/-- The first `count` bytes of a bit stream, padded with zero bits (20_memory.md R38, R39). -/
def packBytes : Nat → List Bool → List Byte
  | 0, _ => []
  | count + 1, bits => packByte bits :: packBytes count (bits.drop 8)

/-- A whole bit stream as bytes: ceil(length / 8) of them (20_memory.md R38, R39). -/
def packStream (bits : List Bool) : List Byte := packBytes (bytesFor bits.length) bits

end Sys2Proof.Machine
end

