-- ==== Sys2Proof/Machine/Ops.lean ====
section
/-! DEFINITION. The shared operations: the address map, host bus reads and writes (20_memory.md R40 to R42), acceptance (40_command.md R63), completion (R65 to R67) and the reset input (70_reset_and_hazards.md R128 to R130). The block has no trap entry and no trap return (60_exceptions.md R118, R119): completing with a status code, `State.complete`, stands in their place. -/

namespace Sys2Proof.Machine

open Sys2Proof.Config

/-! ### The address map (10_state.md R15, 20_memory.md R44) -/

/-- The bus registers (10_state.md R15). -/
inductive Reg where
  | id | param | cmd | status | inLen | outLen | resR | resM | resN | syndrome | flags | errPos
  deriving DecidableEq, Repr

/-- The offset of a register from BASE (10_state.md R15). -/
def Reg.offset : Reg → Nat
  | .id => 0x0000
  | .param => 0x0004
  | .cmd => 0x0008
  | .status => 0x000C
  | .inLen => 0x0010
  | .outLen => 0x0014
  | .resR => 0x0018
  | .resM => 0x001C
  | .resN => 0x0020
  | .syndrome => 0x0024
  | .flags => 0x0028
  | .errPos => 0x002C

/-- Every register, in the order of 10_state.md R15. -/
def Reg.all : List Reg :=
  [.id, .param, .cmd, .status, .inLen, .outLen, .resR, .resM, .resN, .syndrome, .flags, .errPos]

/-- The seven result registers (40_command.md R65). -/
def Reg.isResult : Reg → Bool
  | .outLen | .resR | .resM | .resN | .syndrome | .flags | .errPos => true
  | .id | .param | .cmd | .status | .inLen => false

/-- The bits of a result register that a read while BUSY = 1 leaves open (10_state.md R35). SYNDROME [31:15] and FLAGS
[31:5] read 0 at any time (R26, R27; 93_implementation_defined.md item 12). -/
def Reg.openBits : Reg → Word
  | .syndrome => 0x00007FFF#32
  | .flags => 0x0000001F#32
  | .outLen | .resR | .resM | .resN | .errPos => 0xFFFFFFFF#32
  | .id | .param | .cmd | .status | .inLen => 0#32

/-- What an offset of the window names (10_state.md R15, R29, R30, R31). -/
inductive Target where
  | reg (r : Reg)
  | reserved
  | inBuf (b : Nat)
  | outBuf (b : Nat)
  deriving DecidableEq, Repr

/-- The address map (20_memory.md R44): registers at 0x0000 to 0x002C, IN_BUF at 0x1000 + b, OUT_BUF at 0x2000 + b, every
other offset reserved. -/
def target (off : Nat) : Target :=
  if 0x1000 ≤ off ∧ off < 0x2000 then .inBuf (off - 0x1000)
  else if 0x2000 ≤ off ∧ off < 0x3000 then .outBuf (off - 0x2000)
  else match Reg.all.find? fun r => r.offset == off with
    | some r => .reg r
    | none => .reserved

/-- legal(off, w) (20_memory.md R42): in the buffer windows only w = 1, in the register and reserved windows only w = 4 with
off mod 4 = 0. -/
def legalAccess (off width : Nat) : Bool :=
  if 0x1000 ≤ off ∧ off < 0x3000 then width == 1 else width == 4 && off % 4 == 0

/-- The window of the block: bus addresses BASE to BASE+0x3FFF (20_memory.md R36). -/
def inWindow (p : Params) (addr : Nat) : Bool := p.base ≤ addr && addr < p.base + 0x4000

/-! ### Small updates -/

/-- A read answers with a 32-bit value. -/
def State.replyWord (s : State) (v : Word) : State := { s with reply := .word v }

/-- A read answers with an 8-bit value. -/
def State.replyByte (s : State) (v : Byte) : State := { s with reply := .byte v }

/-- The read of a result register while BUSY = 1: a fresh free value in its open bits, 0 in its reserved ones
(10_state.md R26, R27, R35; log 6). -/
def State.drawWord (s : State) (openBits : Word) : State :=
  { s with reply := .word (freeBusyWord s.draws &&& openBits), draws := s.draws + 1 }

/-- The read of an OUT_BUF byte while BUSY = 1: a fresh free value (10_state.md R35; log 6). -/
def State.drawByte (s : State) : State :=
  { s with reply := .byte (freeBusyByte s.draws), draws := s.draws + 1 }

/-- The oldest event has been taken, and the bus has answered nothing yet. -/
def State.takeEvent (s : State) : State := { s with pending := s.pending.tail, reply := .nothing }

/-! ### Acceptance and completion (40_command.md R63 to R67) -/

/-- The write of v to CMD while BUSY = 0, with its acceptance (20_memory.md R41, 40_command.md R63). -/
def State.accept (s : State) (v : Word) : State :=
  { s with
    cmd := v
    inFlight := { valid := true, op := v, len := s.inLen }
    status := { busy := true, done := false, code := .ok } }

/-- finish(code) (40_command.md R65). L.op and L.len keep their values (log 13). -/
def State.finish (s : State) (code : StatusCode) : State :=
  { s with
    status := { busy := false, done := true, code := code }
    inFlight := { s.inFlight with valid := false } }

/-- What a completion does to OUT_BUF (40_command.md R67). -/
inductive OutWrite where
  /-- RPB and reject: OUT_BUF is not modified. -/
  | unchanged
  /-- ENC and DEC: these bytes from OUT_BUF[0] on, and every other byte a free value. -/
  | bytes (bs : List Byte)
  deriving DecidableEq, Repr

/-- What one command's completion writes (40_command.md R64, R65): a status code, all seven result registers, OUT_BUF. -/
structure Completion where
  code : StatusCode
  results : Results
  out : OutWrite
  deriving DecidableEq, Repr

/-- OUT_BUF at a completion (40_command.md R67): the bytes written, every other byte a fresh free value. -/
def State.writeOut (s : State) : OutWrite → State
  | .unchanged => s
  | .bytes bs => { s with outBuf := Memory.fromBytes 0 bs, outEpoch := s.draws, draws := s.draws + 1 }

/-- All seven result registers at once (40_command.md R65). -/
def State.writeResults (s : State) (r : Results) : State := { s with results := r }

/-- The end of every command, one atomic step (40_command.md R64, R65): OUT_BUF, the result registers, then finish. -/
def State.complete (s : State) (c : Completion) : State :=
  ((s.writeOut c.out).writeResults c.results).finish c.code

/-- reject(code) (40_command.md R66): every result register 0, OUT_BUF unchanged. -/
def Completion.reject (code : StatusCode) : Completion :=
  { code := code, results := Results.zero, out := .unchanged }

/-! ### Host bus accesses (20_memory.md R40, R41) -/

/-- x[register]: the value of a bus register (10_state.md R15 to R28). -/
def State.regValue (s : State) : Reg → Word
  | .id => idWord
  | .param => paramWord s.params
  | .cmd => s.cmd
  | .status => s.status.word
  | .inLen => s.inLen
  | .outLen => s.results.outLen
  | .resR => s.results.resR
  | .resM => s.results.resM
  | .resN => s.results.resN
  | .syndrome => s.results.syndrome
  | .flags => s.results.flags.word
  | .errPos => s.results.errPos

/-- A legal read (20_memory.md R40), with the unspecified values of 10_state.md R35 while BUSY = 1, reserved bits 0. -/
def State.readTarget (s : State) : Target → State
  | .reg r => if s.status.busy && r.isResult then s.drawWord r.openBits else s.replyWord (s.regValue r)
  | .reserved => s.replyWord 0
  | .inBuf b => s.replyByte (if b < instanceBufBytes s.params then s.inByte b else 0)
  | .outBuf b =>
    if b < instanceBufBytes s.params then
      if s.status.busy then s.drawByte else s.replyByte (s.outByte b)
    else s.replyByte 0

/-- The offsets that must not be written while BUSY = 1: CMD, IN_LEN and IN_BUF[b < BUF_BYTES]
(20_memory.md R41, 70_reset_and_hazards.md R134). -/
def isOperandTarget (p : Params) : Target → Bool
  | .reg .cmd => true
  | .reg .inLen => true
  | .inBuf b => b < instanceBufBytes p
  | .reg _ | .reserved | .outBuf _ => false

/-- A legal write that is no hazard (20_memory.md R41). -/
def State.writeTarget (s : State) (v : Word) : Target → State
  | .reg .cmd => s.accept v
  | .reg .inLen => { s with inLen := v }
  | .inBuf b =>
    if b < instanceBufBytes s.params then { s with inBuf := s.inBuf.write b (v.extractLsb' 0 8) } else s
  | .reg _ | .reserved | .outBuf _ => s

/-- MemRead(addr, width) (20_memory.md R40). -/
def State.busRead (s : State) (addr width : Nat) : Host.Outcome State Fault Refusal :=
  if !inWindow s.params addr then .fault (.outsideWindow addr)
  else if !legalAccess (addr - s.params.base) width then .fault (.accessError addr)
  else .next (s.readTarget (target (addr - s.params.base)))

/-- MemWrite(addr, width, v) (20_memory.md R41); AccessError is checked before HostHazard (60_exceptions.md R116). -/
def State.busWrite (s : State) (addr width : Nat) (v : Word) : Host.Outcome State Fault Refusal :=
  if !inWindow s.params addr then .fault (.outsideWindow addr)
  else if !legalAccess (addr - s.params.base) width then .fault (.accessError addr)
  else if s.status.busy && isOperandTarget s.params (target (addr - s.params.base)) then
    .fault (.hostHazard addr)
  else .next (s.writeTarget v (target (addr - s.params.base)))

/-- One host access. -/
def State.hostAccess (s : State) : HostOp → Host.Outcome State Fault Refusal
  | .read addr width => s.busRead addr width
  | .write addr width v => s.busWrite addr width v

/-! ### The reset input -/

/-- The reset input asserted (70_reset_and_hazards.md R128 to R130): every piece of the block's state at its reset value, the
command in flight abandoned, both buffers unspecified again (fresh draws). The instance stays the same, and so do the turns
still to come (log 23). -/
def State.assertReset (s : State) : State :=
  { State.resetWith s.params with
    inEpoch := s.draws
    outEpoch := s.draws
    draws := s.draws + 1
    pending := s.pending }

end Sys2Proof.Machine
end

