-- ==== Sys2Proof/Machine/Completion.lean ====
section
/-! DEFINITION. How the block reads the command in flight, and how an illegal word completes (40_command.md R64, R66; 30_encoding.md R56, R57). -/

namespace Sys2Proof.Machine

/-- The command in flight, decoded at completion (40_command.md R64). -/
def State.decoded (s : State) : Decoded := decodeCmd s.inFlight.op

/-- reject(IllegalCommand) (40_command.md R66): the completion of a word that selects no command. -/
def State.completeIllegal (s : State) : State := s.complete (.reject .illegalCommand)

/-- The word `w` written to CMD now, with the block taking its turn next (log 17). -/
def State.placeCommand (s : State) (w : Word) : State :=
  { s.accept w with pending := .block :: s.pending }

/-- The command word of the table's numbering (spec/opcode_table.json, 30_encoding.md R53): bit 0 of the number is bit 0 of
the one word (log 24). -/
def tableWord (nbits w : Nat) : Word := BitVec.ofNat 32 (w % 2 ^ nbits)

end Sys2Proof.Machine
end

