-- ==== Sys2Proof/Machine/Dec.lean ====
section
/-! DEFINITION. DEC, the decoder (43_decode.md R90). -/

namespace Sys2Proof.Machine

/-- done(code, r, m, syn, flags, outlen) of 43_decode.md R90, with what it does to OUT_BUF (40_command.md R67). -/
def decDone (code : StatusCode) (n r m syn : Nat) (f : Flags) (outLen : Nat) (bs : List Byte) : Completion where
  code := code
  results :=
    { outLen := BitVec.ofNat 32 outLen
      resR := BitVec.ofNat 32 r
      resM := BitVec.ofNat 32 m
      resN := BitVec.ofNat 32 n
      syndrome := BitVec.ofNat 32 syn
      flags := f
      errPos := errPosOf f syn }
  out := .bytes bs

/-- DEC after the syndrome s of the codeword c has been computed (43_decode.md R99 to R104). -/
def decLocated (n r m : Nat) (c : Codeword) (s : Nat) : Completion :=
  if n < s then decDone .unrepairable n r m s Flags.unrepairable 0 []
  else if m % 8 ≠ 0 then decDone .alignmentError n r m s (Flags.located s) 0 []
  else decDone .ok n r m s (Flags.located s).withMessage (m / 8) (packStream (extract (correct c s) n))

/-- DEC of a length n ≥ 1 within capacity, with r parity bits present and m data bits (43_decode.md R94 to R97). -/
def decChecked (n r m : Nat) (input : Nat → Bool) : Completion :=
  if requiredParityBits m ≠ r then decDone .structurallyInvalid n r m 0 Flags.none 0 []
  else decLocated n r m (loadCodeword n input) (syndrome (loadCodeword n input) n r)

/-- What DEC writes for a codeword of n bits in the stream `input`; the checks run in exactly this order
(43_decode.md R90, R91, R92; 60_exceptions.md R117). -/
def decCompletion (nMax n : Nat) (input : Nat → Bool) : Completion :=
  if nMax < n then .reject .capacityExceeded
  else if n = 0 then decDone .emptyInput 0 0 0 0 Flags.none 0 []
  else decChecked n (presentParityBits n) (n - presentParityBits n) input

/-- execDEC(L.len) (43_decode.md R90). -/
def execDec (s : State) : Host.Outcome State Fault Refusal :=
  .next (s.complete (decCompletion (instanceNMax s.params) s.operand s.inBit))

end Sys2Proof.Machine
end

