-- ==== Sys2Proof/Machine/Enc.lean ====
section
/-! DEFINITION. ENC, the encoder (42_encode.md R81). -/

namespace Sys2Proof.Machine

/-- The codeword of the k message bytes at the start of a bit stream (42_encode.md R81 to R85). -/
def encCodeword (k : Nat) (input : Nat → Bool) : Codeword :=
  encodeBits (dataBits k input) (8 * k + requiredParityBits (8 * k)) (requiredParityBits (8 * k))

/-- What ENC writes for a message of k bytes in the stream `input` (42_encode.md R81). -/
def encCompletion (kMax k : Nat) (input : Nat → Bool) : Completion :=
  if kMax < k then .reject .capacityExceeded
  else
    { code := .ok
      results :=
        { Results.zero with
          outLen := BitVec.ofNat 32 (8 * k + requiredParityBits (8 * k))
          resR := BitVec.ofNat 32 (requiredParityBits (8 * k))
          resM := BitVec.ofNat 32 (8 * k)
          resN := BitVec.ofNat 32 (8 * k + requiredParityBits (8 * k)) }
      out := .bytes (packStream (encCodeword k input)) }

/-- execENC(L.len) (42_encode.md R81). -/
def execEnc (s : State) : Host.Outcome State Fault Refusal :=
  .next (s.complete (encCompletion s.params.kMax s.operand s.inBit))

end Sys2Proof.Machine
end

