-- ==== Sys2Proof/Machine/Rpb.lean ====
section
/-! DEFINITION. RPB, the required parity bit count (41_required_parity_bits.md R78). -/

namespace Sys2Proof.Machine

/-- What RPB writes for the operand m (41_required_parity_bits.md R78); RES_N is the only truncated value (40_command.md
R72). -/
def rpbCompletion (m : Nat) : Completion where
  code := .ok
  results :=
    { Results.zero with
      resR := BitVec.ofNat 32 (requiredParityBits m)
      resM := BitVec.ofNat 32 m
      resN := BitVec.ofNat 32 (m + requiredParityBits m) }
  out := .unchanged

/-- execRPB(L.len) (41_required_parity_bits.md R78). -/
def execRpb (s : State) : Host.Outcome State Fault Refusal :=
  .next (s.complete (rpbCompletion s.operand))

end Sys2Proof.Machine
end

