-- ==== Sys2Proof/Machine/Step.lean ====
section
/-! DEFINITION. One step of the machine: one turn of one agent (40_command.md R61). -/

namespace Sys2Proof.Machine

/-- The completion step (40_command.md R64). -/
def State.runCommand (s : State) : Host.Outcome State Fault Refusal :=
  match s.decoded with
  | .command i => exec i s
  | .illegal _ => .next s.completeIllegal

/-- The block's turn: its completion step where that is enabled (L.valid = 1), else nothing (40_command.md R61, R64;
log 3). -/
def State.blockTurn (s : State) : Host.Outcome State Fault Refusal :=
  if s.inFlight.valid then s.runCommand else .next s

/-- One step: the turn of the oldest pending event. With no event left the block has the turn, so a busy block completes
(40_command.md R68; log 2). -/
def step (s : State) : Host.Outcome State Fault Refusal :=
  match s.pending with
  | [] => s.takeEvent.blockTurn
  | .block :: _ => s.takeEvent.blockTurn
  | .host op :: _ => s.takeEvent.hostAccess op
  | .reset :: _ => .next s.takeEvent.assertReset

/-- `s` with the command word `w` accepted and the block's turn next, so that the very next step completes it (log 17). -/
def State.withFetchWord (s : State) (nbits w : Nat) : State := s.placeCommand (tableWord nbits w)

end Sys2Proof.Machine
end

