-- ==== Sys2Proof/Machine/HostProgram.lean ====
section
/-! DEFINITION. The host notation and the pseudo-operations of 30_encoding.md R59 and R60, as lists of events. -/

namespace Sys2Proof.Machine

open Sys2Proof.Config

/-- WR32 off, v (30_encoding.md R59). -/
def wr32 (p : Params) (off : Nat) (v : Word) : Event := .host (.write (p.base + off) 4 v)

/-- RD32 off (30_encoding.md R59). -/
def rd32 (p : Params) (off : Nat) : Event := .host (.read (p.base + off) 4)

/-- WR8 off, v (30_encoding.md R59). -/
def wr8 (p : Params) (off : Nat) (v : Byte) : Event := .host (.write (p.base + off) 1 (v.setWidth 32))

/-- RD8 off (30_encoding.md R59). -/
def rd8 (p : Params) (off : Nat) : Event := .host (.read (p.base + off) 1)

/-- POLL (30_encoding.md R59): `busyReads` reads of STATUS that find DONE = 0, the block's completion, and the read that finds
DONE = 1. The number of busy reads is the latency, finite and unspecified (40_command.md R68; log 20). -/
def poll (p : Params) (busyReads : Nat) : List Event :=
  List.replicate busyReads (rd32 p Reg.status.offset) ++ [.block, rd32 p Reg.status.offset]

/-- WR8 IN_BUF + b for the bytes of an operand, from IN_BUF[start] on (30_encoding.md R60). -/
def writeOperand (p : Params) (start : Nat) : List Byte → List Event
  | [] => []
  | b :: bs => wr8 p (0x1000 + start) b :: writeOperand p (start + 1) bs

/-- WR32 IN_LEN, then WR32 CMD, then POLL: the end of every pseudo-operation (30_encoding.md R60). -/
def startAndPoll (p : Params) (len : Word) (i : Instr) (busyReads : Nat) : List Event :=
  wr32 p Reg.inLen.offset len :: wr32 p Reg.cmd.offset (encodeCmd i) :: poll p busyReads

/-- RPB.op m (30_encoding.md R60). -/
def rpbOp (p : Params) (m : Word) (busyReads : Nat) : List Event := startAndPoll p m .rpb busyReads

/-- ENC.op b0..bk-1 (30_encoding.md R60). -/
def encOp (p : Params) (message : List Byte) (busyReads : Nat) : List Event :=
  writeOperand p 0 message ++ startAndPoll p (BitVec.ofNat 32 message.length) .enc busyReads

/-- DEC.op n, B0..Bq-1 (30_encoding.md R60). -/
def decOp (p : Params) (n : Word) (packed : List Byte) (busyReads : Nat) : List Event :=
  writeOperand p 0 packed ++ startAndPoll p n .dec busyReads

end Sys2Proof.Machine
end

