-- ==== Sys2Proof/Safety.lean ====
section
/-! DEFINITION. What claims about the machine are stated in: the next state of an outcome, the invariant every step keeps, who takes the next turn, and host accesses that obey the protocol. -/

namespace Sys2Proof.Machine

open Sys2Proof.Config

/-- The next state of an outcome, none for a fault or a refusal. -/
def nextOf : Host.Outcome State Fault Refusal → Option State
  | .next s => some s
  | .fault _ => none
  | .refused _ => none

/-- The fault of an outcome, none for a next state or a refusal. -/
def faultOf : Host.Outcome State Fault Refusal → Option Fault
  | .next _ => none
  | .fault f => some f
  | .refused _ => none

/-- The next turn is the block's: the schedule says so, or nothing is left of it. -/
def State.blockMoves (s : State) : Prop := s.pending.head? = some .block ∨ s.pending = []

/-- The next turn is the reset input's. -/
def State.resetMoves (s : State) : Prop := s.pending.head? = some .reset

/-- The next turn is the host's, with this access. -/
def State.hostMoves (s : State) (op : HostOp) : Prop := s.pending.head? = some (.host op)

/-- The step from `s` to `t` ends the command that was accepted last (40_command.md R75): the host reads STATUS, and bit 1,
DONE, of the value read is 1. -/
def CommandEnds (s t : State) : Prop :=
  s.hostMoves (.read (s.params.base + Reg.status.offset) 4) ∧ step s = .next t
    ∧ ∃ v, t.reply = .word v ∧ v.getLsbD 1 = true

/-- The syndrome of the DEC operand: of the n = L.len bits at the start of IN (43_decode.md R96, R97). -/
def State.operandSyndrome (s : State) : Nat :=
  syndrome (loadCodeword s.operand s.inBit) s.operand (presentParityBits s.operand)

/-- The exclusive-or of the positions of 1..n that hold a 1 (43_decode.md R98). -/
def xorOfOnes (c : Codeword) (n : Nat) : Nat :=
  (positions n).foldl (fun x p => if Codeword.bit c p then x ^^^ p else x) 0

/-- The outcome is a next state in which STATUS and the seven result registers read as given, and `rest` holds. -/
def Completes (o : Host.Outcome State Fault Refusal) (status outLen resR resM resN syndrome flags errPos : Nat)
    (rest : State → Prop) : Prop :=
  ∃ t, o = .next t
    ∧ t.regValue .status = BitVec.ofNat 32 status
    ∧ t.regValue .outLen = BitVec.ofNat 32 outLen
    ∧ t.regValue .resR = BitVec.ofNat 32 resR
    ∧ t.regValue .resM = BitVec.ofNat 32 resM
    ∧ t.regValue .resN = BitVec.ofNat 32 resN
    ∧ t.regValue .syndrome = BitVec.ofNat 32 syndrome
    ∧ t.regValue .flags = BitVec.ofNat 32 flags
    ∧ t.regValue .errPos = BitVec.ofNat 32 errPos
    ∧ rest t

/-- What the block is always in (00_scope.md R7, 10_state.md R19, R26 to R28, R30, R31, R34). -/
structure State.Inv (s : State) : Prop where
  /-- The instance is a legal one (00_scope.md R7). -/
  params_legal : s.params.wf = true
  /-- L.valid mirrors BUSY (10_state.md R34). -/
  busy_is_valid : s.status.busy = s.inFlight.valid
  /-- BUSY and DONE are never both 1 (10_state.md R19). -/
  busy_not_done : ¬(s.status.busy = true ∧ s.status.done = true)
  /-- CODE reads 0 while BUSY = 1 and after reset (10_state.md R19). -/
  code_when_not_done : s.status.done = false → s.status.code = .ok
  /-- IN_BUF is in canonical form. -/
  in_canonical : s.inBuf.wf = true
  /-- Only IN_BUF[0..BUF_BYTES-1] is storage (10_state.md R30). -/
  in_within : s.inBuf.below (instanceBufBytes s.params) = true
  /-- OUT_BUF is in canonical form. -/
  out_canonical : s.outBuf.wf = true
  /-- Only OUT_BUF[0..BUF_BYTES-1] is storage (10_state.md R31). -/
  out_within : s.outBuf.below (instanceBufBytes s.params) = true
  /-- SYNDROME bits [31:15] are 0 (10_state.md R26). -/
  syndrome_small : s.results.syndrome.toNat < 2 ^ 15
  /-- ERR_DET says that the syndrome is nonzero (10_state.md R27). -/
  detected_iff : s.results.flags.errDet = true ↔ s.results.syndrome ≠ 0
  /-- A bit is flipped exactly where ERR_POS holds a position (10_state.md R27). -/
  corrected_iff : s.results.flags.errCor = s.results.flags.posValid
  /-- ERR_POS equals SYNDROME and lies in [1, n] where POS_VALID = 1 (10_state.md R28). -/
  position_valid : s.results.flags.posValid = true →
    s.results.errPos = s.results.syndrome ∧ 1 ≤ s.results.errPos.toNat
      ∧ s.results.errPos.toNat ≤ s.results.resN.toNat
  /-- ERR_POS holds 0 where POS_VALID = 0 (10_state.md R28). -/
  position_absent : s.results.flags.posValid = false → s.results.errPos = 0
  /-- The draws of unwritten IN_BUF bytes are not handed out again (log 7). -/
  in_epoch_used : s.inEpoch < s.draws
  /-- The draws of undefined OUT_BUF bytes are not handed out again (log 7). -/
  out_epoch_used : s.outEpoch < s.draws

end Sys2Proof.Machine
end

