-- ==== Sys2Proof/Certificates/Slice0/Obligations.lean ====
section
/-! DEFINITION. The statements for the provers, each from a rule of spec/ that its docstring names. -/

open Sys2Proof Sys2Proof.Config Sys2Proof.Machine

/-! ### Command words (30_encoding.md) -/

/-- R54: each of the three words selects its command, and no other word does. -/
def Obligations.EachCommandIsSelectedByItsWholeWord : Prop :=
  ∀ w : Word, (decodeCmd w = .command .rpb ↔ w = 0x00000001#32) ∧ (decodeCmd w = .command .enc ↔ w = 0x00000002#32)
    ∧ (decodeCmd w = .command .dec ↔ w = 0x00000003#32)

/-- Words written out from R54 and the illegal words of 95_test_vectors.md 2.6. -/
def Obligations.SampleWordsDecodeAsTheTableSays : Prop :=
  decodeCmd 0x00000001#32 = .command .rpb ∧ decodeCmd 0x00000002#32 = .command .enc
    ∧ decodeCmd 0x00000003#32 = .command .dec ∧ decodeCmd 0x00000000#32 = .illegal .opcodeUnassigned
    ∧ decodeCmd 0x00000004#32 = .illegal .opcodeUnassigned ∧ decodeCmd 0x0000000F#32 = .illegal .opcodeUnassigned
    ∧ decodeCmd 0x00000011#32 = .illegal .reservedNonzero ∧ decodeCmd 0x80000002#32 = .illegal .reservedNonzero

/-- R57: the decoder, on every one of the 2^32 words, by its fields. -/
def Obligations.DecoderFollowsTheFields : Prop :=
  ∀ w : Word,
    (w.extractLsb' 4 28 ≠ 0#28 → decodeCmd w = .illegal .reservedNonzero)
      ∧ (w.extractLsb' 4 28 = 0#28 →
          (w.extractLsb' 0 4 = 1#4 → decodeCmd w = .command .rpb)
            ∧ (w.extractLsb' 0 4 = 2#4 → decodeCmd w = .command .enc)
            ∧ (w.extractLsb' 0 4 = 3#4 → decodeCmd w = .command .dec)
            ∧ (w.extractLsb' 0 4 ≠ 1#4 → w.extractLsb' 0 4 ≠ 2#4 → w.extractLsb' 0 4 ≠ 3#4 →
                decodeCmd w = .illegal .opcodeUnassigned))

/-- Decoding an encoded command gives it back. -/
def Obligations.DecodeUndoesEncode : Prop :=
  ∀ i : Instr, i.wf = true → decodeCmd (encodeCmd i) = .command i

/-- A word that decodes to a command is that command's encoding. -/
def Obligations.EncodeUndoesDecode : Prop :=
  ∀ (w : Word) (i : Instr), decodeCmd w = .command i → encodeCmd i = w

/-! ### The block's turn (40_command.md) -/

/-- R64: on the block's turn with a command in flight, the step is the command's meaning on the state whose oldest event has
been taken and whose bus reply has been cleared; nothing else is added around it. -/
def Obligations.StepRunsTheDecodedCommand : Prop :=
  ∀ (s : State) (i : Instr), s.blockMoves → s.inFlight.valid = true → decodeCmd s.inFlight.op = .command i → i.wf = true →
    step s = exec i { s with pending := s.pending.tail, reply := .nothing }

/-- R56, R66: a word that selects no command completes with IllegalCommand; every result register is 0, OUT_BUF is not
modified, the operands stay, and the block is idle. That L.op and L.len keep their values is the model's choice, not the spec's (log 13). -/
def Obligations.IllegalWordCompletesByRejection : Prop :=
  ∀ (s : State) (why : IllegalWord), s.blockMoves → s.inFlight.valid = true → decodeCmd s.inFlight.op = .illegal why →
    Completes (step s) 0x52 0 0 0 0 0 0 0 fun t =>
      t.outByte = s.outByte ∧ t.inByte = s.inByte ∧ t.cmd = s.cmd ∧ t.inLen = s.inLen ∧ t.params = s.params
        ∧ t.inFlight = { s.inFlight with valid := false }

/-- R61: the block has no step of its own while no command is in flight. The model takes its turn as no change (log 3, the
model's choice). -/
def Obligations.IdleBlockChangesNothing : Prop :=
  ∀ s : State, s.blockMoves → s.inFlight.valid = false →
    step s = .next { s with pending := s.pending.tail, reply := .nothing }

/-- R68: a command never fails to complete (in the model's schedule: log 2, log 20). Whatever finite number of polls comes first (the latency), the block completes
and the next poll finds DONE = 1. R59: the reads before find BUSY. -/
def Obligations.BusyBlockCompletesAfterAnyNumberOfPolls : Prop :=
  ∀ (s : State) (busyReads : Nat), s.Inv → s.status.busy = true → s.pending = poll s.params busyReads →
    ∃ t, Host.Core.run core (busyReads + 2) s = .next t ∧ t.status.busy = false ∧ t.status.done = true
      ∧ t.inFlight.valid = false ∧ t.pending = [] ∧ t.reply = .word t.status.word

/-- R59: a poll of a busy block reads STATUS = 0x00000001 and changes nothing else. -/
def Obligations.PollOfABusyBlockReadsOne : Prop :=
  ∀ (s : State), s.Inv → s.status.busy = true → s.hostMoves (.read (s.params.base + 0x000C) 4) →
    step s = .next { s with pending := s.pending.tail, reply := .word 0x00000001#32 }

/-! ### Host accesses (20_memory.md, 60_exceptions.md) -/

/-- R112: an illegal access is AccessError with its bus address, whether it reads or writes. -/
def Obligations.IllegalAccessIsAccessError : Prop :=
  ∀ (s : State) (off width : Nat) (v : Word), off < 0x4000 →
    ¬((0x1000 ≤ off ∧ off < 0x3000 ∧ width = 1) ∨ (¬(0x1000 ≤ off ∧ off < 0x3000) ∧ width = 4 ∧ off % 4 = 0)) →
    (s.hostMoves (.read (s.params.base + off) width) → step s = .fault (.accessError (s.params.base + off)))
      ∧ (s.hostMoves (.write (s.params.base + off) width v) → step s = .fault (.accessError (s.params.base + off)))

/-- R45: every legal read is performed. -/
def Obligations.EveryLegalReadIsPerformed : Prop :=
  ∀ (s : State) (off width : Nat), off < 0x4000 →
    ((0x1000 ≤ off ∧ off < 0x3000 ∧ width = 1) ∨ (¬(0x1000 ≤ off ∧ off < 0x3000) ∧ width = 4 ∧ off % 4 = 0)) →
    s.hostMoves (.read (s.params.base + off) width) → ∃ t, step s = .next t ∧ t.reply ≠ .nothing

/-- R40, R15: what a 32-bit read of each register offset returns while no command is in flight. ID, PARAM, CMD and IN_LEN
return it also while one is (R35 names none of them). -/
def Obligations.RegisterReadsFollowTheMap : Prop :=
  ∀ (s : State) (off : Nat) (v : Word), s.params.wf = true →
    (s.status.busy = false ∨ off ∈ [0x0000, 0x0004, 0x0008, 0x0010]) →
    s.hostMoves (.read (s.params.base + off) 4) →
    (off, v) ∈ [(0x0000, 0x48414D31#32),
      (0x0004, BitVec.ofNat 32 (nMaxOf s.params.kMax * 2 ^ 16 + s.params.kMax)),
      (0x0008, s.cmd),
      (0x000C, BitVec.ofNat 32 (s.status.code.value.toNat * 16 + (if s.status.done then 2 else 0))),
      (0x0010, s.inLen), (0x0014, s.results.outLen), (0x0018, s.results.resR), (0x001C, s.results.resM),
      (0x0020, s.results.resN), (0x0024, s.results.syndrome), (0x0028, s.results.flags.word),
      (0x002C, s.results.errPos)] →
    step s = .next { s with pending := s.pending.tail, reply := .word v }

/-- R29: a legal read of a reserved offset returns 0, a legal write there is ignored, and neither has a side effect, busy or
not. -/
def Obligations.ReservedOffsetsReadZeroAndIgnoreWrites : Prop :=
  ∀ (s : State) (off : Nat) (v : Word),
    ((0x0030 ≤ off ∧ off < 0x1000) ∨ (0x3000 ≤ off ∧ off < 0x4000)) → off % 4 = 0 →
    (s.hostMoves (.read (s.params.base + off) 4) →
        step s = .next { s with pending := s.pending.tail, reply := .word 0 })
      ∧ (s.hostMoves (.write (s.params.base + off) 4 v) →
        step s = .next { s with pending := s.pending.tail, reply := .nothing })

/-- R40, R30, R31: what an 8-bit read of a buffer byte returns: IN_BUF[b] at any time, OUT_BUF[b] while no command is in
flight, and 0 from BUF_BYTES on at any time. A byte that nothing has defined is a free value (the model's choice of its form: log 4, log 5). -/
def Obligations.BufferReadsGiveTheByte : Prop :=
  ∀ (s : State) (b : Nat), b < 0x1000 →
    (s.hostMoves (.read (s.params.base + 0x1000 + b) 1) →
        step s = .next { s with
          pending := s.pending.tail
          reply := .byte (if b < bytesFor (nMaxOf s.params.kMax) then s.inByte b else 0) })
      ∧ (s.hostMoves (.read (s.params.base + 0x2000 + b) 1) →
        (s.status.busy = false ∨ bytesFor (nMaxOf s.params.kMax) ≤ b) →
        step s = .next { s with
          pending := s.pending.tail
          reply := .byte (if b < bytesFor (nMaxOf s.params.kMax) then s.outByte b else 0) })

/-- R35: while BUSY = 1, a read of a result register or of OUT_BUF[b < BUF_BYTES] returns a fresh free value and changes
nothing of the block. R26, R27: SYNDROME [31:15] and FLAGS [31:5] read 0 then too, so only the bits of `openBits` are free. That it is the next numbered draw is the model's choice (log 6, log 7). -/
def Obligations.BusyReadsReturnFreshFreeValues : Prop :=
  ∀ (s : State), s.status.busy = true →
    (∀ (off : Nat) (openBits : Word),
        (off, openBits) ∈ [(0x0014, 0xFFFFFFFF#32), (0x0018, 0xFFFFFFFF#32), (0x001C, 0xFFFFFFFF#32),
          (0x0020, 0xFFFFFFFF#32), (0x0024, 0x00007FFF#32), (0x0028, 0x0000001F#32), (0x002C, 0xFFFFFFFF#32)] →
        s.hostMoves (.read (s.params.base + off) 4) →
        step s = .next { s with
          pending := s.pending.tail, reply := .word (freeBusyWord s.draws &&& openBits), draws := s.draws + 1 })
      ∧ (∀ b, b < bytesFor (nMaxOf s.params.kMax) → b < 0x1000 →
        s.hostMoves (.read (s.params.base + 0x2000 + b) 1) →
        step s = .next { s with
          pending := s.pending.tail, reply := .byte (freeBusyByte s.draws), draws := s.draws + 1 })

/-- R43: a read that answers changes no state of the block (the schedule, the reply and the number of the next draw are the
model's own: log 2, log 16, log 7). -/
def Obligations.ReadsChangeNoStateOfTheBlock : Prop :=
  ∀ (s t : State) (addr width : Nat), s.hostMoves (.read addr width) → step s = .next t →
    t = { s with pending := s.pending.tail, reply := t.reply, draws := t.draws }

/-- R43: two reads of one address with nothing between them return the same, except for the unspecified values of R35: those
of a result register or of OUT_BUF[b < BUF_BYTES] while BUSY = 1. -/
def Obligations.ReadsAreIdempotent : Prop :=
  ∀ (s t u : State) (addr width : Nat) (later : List Event),
    (s.status.busy = false
      ∨ ∀ off, addr = s.params.base + off →
          off ∉ [0x0014, 0x0018, 0x001C, 0x0020, 0x0024, 0x0028, 0x002C]
            ∧ ¬(0x2000 ≤ off ∧ off < 0x3000 ∧ off < 0x2000 + bytesFor (nMaxOf s.params.kMax))) →
    s.pending = .host (.read addr width) :: .host (.read addr width) :: later →
    step s = .next t → step t = .next u → u.reply = t.reply ∧ u = { t with pending := later }

/-- R41, R43: a legal write to a read-only register, to a RAZ/WI offset or to OUT_BUF has no effect, busy or not. -/
def Obligations.OtherWritesAreIgnored : Prop :=
  ∀ (s : State) (off width : Nat) (v : Word), off < 0x4000 →
    ((0x1000 ≤ off ∧ off < 0x3000 ∧ width = 1) ∨ (¬(0x1000 ≤ off ∧ off < 0x3000) ∧ width = 4 ∧ off % 4 = 0)) →
    off ≠ 0x0008 → off ≠ 0x0010 → ¬(0x1000 ≤ off ∧ off < 0x2000 ∧ off < 0x1000 + bytesFor (nMaxOf s.params.kMax)) →
    s.hostMoves (.write (s.params.base + off) width v) →
    step s = .next { s with pending := s.pending.tail, reply := .nothing }

/-- R63: a write to CMD while BUSY = 0 is accepted, in one step, and writes nothing else. -/
def Obligations.CmdWriteIsAccepted : Prop :=
  ∀ (s : State) (v : Word), s.status.busy = false → s.hostMoves (.write (s.params.base + 0x0008) 4 v) →
    step s = .next { s with
      pending := s.pending.tail
      reply := .nothing
      cmd := v
      inFlight := { valid := true, op := v, len := s.inLen }
      status := { busy := true, done := false, code := .ok } }

/-- R41: a write to IN_LEN while BUSY = 0 stores the word and writes nothing else. -/
def Obligations.InLenWriteIsStored : Prop :=
  ∀ (s : State) (v : Word), s.status.busy = false → s.hostMoves (.write (s.params.base + 0x0010) 4 v) →
    step s = .next { s with pending := s.pending.tail, reply := .nothing, inLen := v }

/-- R41, R30: a write to IN_BUF[b < BUF_BYTES] while BUSY = 0 stores bits [7:0]; every other byte and all the rest stay. -/
def Obligations.InBufWriteStoresOneByte : Prop :=
  ∀ (s : State) (b : Nat) (v : Word), s.status.busy = false → b < bytesFor (nMaxOf s.params.kMax) → b < 0x1000 →
    s.hostMoves (.write (s.params.base + 0x1000 + b) 1 v) →
    ∃ t, step s = .next t ∧ t = { s with pending := s.pending.tail, reply := .nothing, inBuf := t.inBuf }
      ∧ t.inByte b = v.extractLsb' 0 8 ∧ ∀ c, c ≠ b → t.inByte c = s.inByte c

/-- R134, R113: a legal write raises HostHazard with its bus address exactly when BUSY = 1 and it writes CMD, IN_LEN or
IN_BUF[b < BUF_BYTES]. -/
def Obligations.HostHazardExactlyOnOperandWritesWhileBusy : Prop :=
  ∀ (s : State) (off width : Nat) (v : Word), off < 0x4000 →
    ((0x1000 ≤ off ∧ off < 0x3000 ∧ width = 1) ∨ (¬(0x1000 ≤ off ∧ off < 0x3000) ∧ width = 4 ∧ off % 4 = 0)) →
    s.hostMoves (.write (s.params.base + off) width v) →
    (step s = .fault (.hostHazard (s.params.base + off)) ↔
      s.status.busy = true
        ∧ (off = 0x0008 ∨ off = 0x0010
          ∨ (0x1000 ≤ off ∧ off < 0x2000 ∧ off < 0x1000 + bytesFor (nMaxOf s.params.kMax))))

/-- R19, R27: the bits of STATUS and FLAGS, the reserved ones zero. -/
def Obligations.StatusAndFlagsBits : Prop :=
  ∀ (s : State),
    ((s.regValue .status).getLsbD 0 = s.status.busy ∧ (s.regValue .status).getLsbD 1 = s.status.done
        ∧ (s.regValue .status).extractLsb' 2 2 = 0#2 ∧ (s.regValue .status).extractLsb' 4 4 = s.status.code.value
        ∧ (s.regValue .status).extractLsb' 8 24 = 0#24)
      ∧ ((s.regValue .flags).getLsbD 0 = s.results.flags.errDet ∧ (s.regValue .flags).getLsbD 1 = s.results.flags.errCor
        ∧ (s.regValue .flags).getLsbD 2 = s.results.flags.posValid
        ∧ (s.regValue .flags).getLsbD 3 = s.results.flags.repairable
        ∧ (s.regValue .flags).getLsbD 4 = s.results.flags.msgValid
        ∧ (s.regValue .flags).extractLsb' 5 27 = 0#27)

/-! ### Reset (70_reset_and_hazards.md) -/

/-- R129: every register after reset, of every instance; no command is in flight. -/
def Obligations.RegistersAfterReset : Prop :=
  ∀ p : Params, p.wf = true →
    (State.resetWith p).regValue .id = 0x48414D31#32
      ∧ (State.resetWith p).regValue .param = BitVec.ofNat 32 (nMaxOf p.kMax * 2 ^ 16 + p.kMax)
      ∧ (∀ r, r ≠ .id → r ≠ .param → (State.resetWith p).regValue r = 0)
      ∧ (State.resetWith p).inFlight = { valid := false, op := 0, len := 0 }

/-- R128, R130: the reset input, asserted in any state, also while a command is in flight, leaves every register at its
reset value, abandons the command, and leaves both buffers unspecified: free values of a fresh draw (the model's form
of them: log 4, log 5, log 23). -/
def Obligations.ResetInputRestoresTheResetState : Prop :=
  ∀ s : State, s.resetMoves →
    ∃ t, step s = .next t ∧ t.params = s.params
      ∧ (∀ r, t.regValue r = (State.resetWith s.params).regValue r)
      ∧ t.inFlight = { valid := false, op := 0, len := 0 } ∧ t.status.done = false
      ∧ (∀ b, t.inByte b = freeInByte s.draws b) ∧ (∀ b, t.outByte b = freeOutByte s.draws b)
      ∧ t.draws = s.draws + 1

/-! ### RPB (41_required_parity_bits.md) -/

/-- R76: the least r ≥ 1 with 2^r ≥ m + r + 1, and 2 for m = 0. -/
def Obligations.RequiredParityBitsIsTheLeast : Prop :=
  requiredParityBits 0 = 2
    ∧ ∀ m, 1 ≤ m → 1 ≤ requiredParityBits m ∧ m + requiredParityBits m + 1 ≤ 2 ^ requiredParityBits m
      ∧ ∀ q, 1 ≤ q → q < requiredParityBits m → 2 ^ q < m + q + 1

/-- R77 (the spec marks it as derived from R76): the range of m for each r. -/
def Obligations.RequiredParityBitsRanges : Prop :=
  (∀ m, requiredParityBits m = 2 ↔ m ≤ 1)
    ∧ ∀ r m, 3 ≤ r → (requiredParityBits m = r ↔ 2 ^ (r - 1) - r + 1 ≤ m ∧ m ≤ 2 ^ r - r - 1)

/-- R79 (the spec marks it as derived from R76): non-decreasing, 2 at 0, and at least 2. -/
def Obligations.RequiredParityBitsIsMonotone : Prop :=
  (∀ m m', m ≤ m' → requiredParityBits m ≤ requiredParityBits m') ∧ requiredParityBits 0 = 2
    ∧ ∀ m, 2 ≤ requiredParityBits m

/-- R80 (the spec marks it as derived from R76): with r = requiredParityBits(m) and n = m + r, 2^(r-1) ≤ n < 2^r, exactly the powers 2^i with i < r are at most n,
and presentParityBits(n) = r. -/
def Obligations.EncodedLengthsHoldTheirParityBits : Prop :=
  ∀ m, 2 ^ (requiredParityBits m - 1) ≤ m + requiredParityBits m
    ∧ m + requiredParityBits m < 2 ^ requiredParityBits m
    ∧ (∀ i, 2 ^ i ≤ m + requiredParityBits m ↔ i < requiredParityBits m)
    ∧ presentParityBits (m + requiredParityBits m) = requiredParityBits m

/-- R78: RPB is the word 0x00000001 and completes for every 32-bit operand, with the corner cases of the rule. -/
def Obligations.RpbCompletesForEveryOperand : Prop :=
  decodeCmd 0x00000001#32 = .command .rpb
    ∧ (∀ s : State, 2 ≤ requiredParityBits s.operand ∧ requiredParityBits s.operand ≤ 33
      ∧ Completes (exec .rpb s) 0x02 0 (requiredParityBits s.operand) s.operand
        ((s.operand + requiredParityBits s.operand) % 2 ^ 32) 0 0 0 fun t =>
          t.outByte = s.outByte ∧ t.inFlight.valid = false)
    ∧ requiredParityBits 0 = 2 ∧ requiredParityBits 1 = 2 ∧ requiredParityBits 4 = 3 ∧ requiredParityBits 5 = 4
    ∧ requiredParityBits 16 = 5 ∧ requiredParityBits 0xFFFFFFDF = 32 ∧ requiredParityBits 0xFFFFFFE0 = 33
    ∧ requiredParityBits 0xFFFFFFFF = 33

/-! ### ENC (42_encode.md) -/

/-- R81: ENC of a message within capacity completes with OK and these registers; OUT_BUF holds a systematic codeword: the
message bits at the data positions in order (R84), every parity subset even (R85), zero padding up to the byte boundary
(R39). -/
def Obligations.EncWritesTheCodeword : Prop :=
  ∀ s : State, s.operand ≤ s.params.kMax →
    Completes (exec .enc s) 0x02 (8 * s.operand + requiredParityBits (8 * s.operand))
      (requiredParityBits (8 * s.operand)) (8 * s.operand) (8 * s.operand + requiredParityBits (8 * s.operand)) 0 0 0
      fun t =>
        (∀ i p, (dataPos (8 * s.operand + requiredParityBits (8 * s.operand)))[i]? = some p →
            t.outBit (p - 1) = s.inBit i)
          ∧ (∀ i, i < requiredParityBits (8 * s.operand) →
              ((positions (8 * s.operand + requiredParityBits (8 * s.operand))).filter fun p =>
                p.testBit i && t.outBit (p - 1)).length % 2 = 0)
          ∧ (∀ j, 8 * s.operand + requiredParityBits (8 * s.operand) ≤ j →
              j < 8 * bytesFor (8 * s.operand + requiredParityBits (8 * s.operand)) → t.outBit j = false)

/-- R81: ENC of a longer message is rejected with CapacityExceeded, and OUT_BUF is unchanged. -/
def Obligations.EncOverCapacityIsRejected : Prop :=
  ∀ s : State, s.params.kMax < s.operand →
    Completes (exec .enc s) 0x62 0 0 0 0 0 0 0 fun t => t.outByte = s.outByte ∧ t.inFlight.valid = false

/-- R86: ENC of the empty message produces the codeword 00: two bits, and OUT_BUF[0] = 0x00. -/
def Obligations.EncOfTheEmptyMessage : Prop :=
  ∀ s : State, s.operand = 0 → Completes (exec .enc s) 0x02 2 2 0 2 0 0 0 fun t => t.outByte 0 = 0x00#8

/-- R88 (the spec marks it as derived from R85 and R97): every codeword ENC produces has syndrome 0, and the exclusive-or of its positions that hold a 1 is 0. -/
def Obligations.EncodedWordsHaveSyndromeZero : Prop :=
  ∀ (k : Nat) (input : Nat → Bool),
    syndrome (encCodeword k input) (8 * k + requiredParityBits (8 * k)) (requiredParityBits (8 * k)) = 0
      ∧ xorOfOnes (encCodeword k input) (8 * k + requiredParityBits (8 * k)) = 0

/-- R89 (the spec marks it as derived from R84 and R69): the code is systematic: reading the codeword at the data positions gives the message bits back, and the codeword
depends only on the message bits. -/
def Obligations.EncodingIsSystematic : Prop :=
  ∀ (k : Nat) (input input' : Nat → Bool),
    extract (encCodeword k input) (8 * k + requiredParityBits (8 * k)) = (List.range (8 * k)).map input
      ∧ ((∀ j, j < 8 * k → input j = input' j) → encCodeword k input = encCodeword k input')

/-! ### DEC (43_decode.md) -/

/-- R93: presentParityBits(n) is the count of the powers of two that are at most n, floor(log2(n)) + 1, the bit length of
n. -/
def Obligations.PresentParityBitsCountsThePowers : Prop :=
  ∀ n, 1 ≤ n → presentParityBits n = ((List.range (n + 1)).filter fun i => decide (2 ^ i ≤ n)).length
    ∧ presentParityBits n = Nat.log2 n + 1
    ∧ 2 ^ (presentParityBits n - 1) ≤ n ∧ n < 2 ^ presentParityBits n

/-- R94 ("the m<0 branch is unreachable", which the spec marks as derived from R93): the bit length of n never exceeds n. -/
def Obligations.DataBitCountIsNeverNegative : Prop := ∀ n, 1 ≤ n → presentParityBits n ≤ n

/-- R71 (its length and first elements are marked as derived from R70): dataPos(n) lists the positions of 1..n that are no power of two, ascending; its length is
n - presentParityBits(n); its first elements. -/
def Obligations.DataPositionsAreTheOthers : Prop :=
  (∀ n p, p ∈ dataPos n ↔ 1 ≤ p ∧ p ≤ n ∧ ∀ i, p ≠ 2 ^ i)
    ∧ (∀ n, (dataPos n).Pairwise (· < ·))
    ∧ (∀ n, 1 ≤ n → (dataPos n).length = n - presentParityBits n)
    ∧ dataPos 17 = [3, 5, 6, 7, 9, 10, 11, 12, 13, 14, 15, 17]

/-- R95 ("The check passes exactly when", which the spec marks as derived from R76 and R80): the structural check passes exactly for the lengths that ENC's geometry can give, which are the n ≥ 2 that are no
power 2^k with k ≥ 2. -/
def Obligations.StructuralCheckAcceptsExactlyTheLengths : Prop :=
  ∀ n, 1 ≤ n →
    (requiredParityBits (n - presentParityBits n) = presentParityBits n ↔ ∃ m, n = m + requiredParityBits m)
      ∧ (requiredParityBits (n - presentParityBits n) = presentParityBits n ↔ 2 ≤ n ∧ ∀ k, 2 ≤ k → n ≠ 2 ^ k)

/-- R98 (the spec marks it as derived from R97 and R93): the syndrome lies in [0, 2^r - 1] and can exceed n unless n = 2^r - 1; it is the exclusive-or of the positions that
hold a 1; a flip at q changes it to s ⊕ q. -/
def Obligations.SyndromeIsTheXorOfPositions : Prop :=
  ∀ (n : Nat) (c : Codeword), 1 ≤ n → c.length = n →
    syndrome c n (presentParityBits n) ≤ 2 ^ presentParityBits n - 1
      ∧ (n ≠ 2 ^ presentParityBits n - 1 → ∃ c', c'.length = n ∧ n < syndrome c' n (presentParityBits n))
      ∧ syndrome c n (presentParityBits n) = xorOfOnes c n
      ∧ ∀ q, 1 ≤ q → q ≤ n →
          syndrome (c.setBit q (!c.bit q)) n (presentParityBits n) = syndrome c n (presentParityBits n) ^^^ q

/-- R91: DEC above N_MAX is rejected with CapacityExceeded before every other check, and OUT_BUF is unchanged. -/
def Obligations.DecOverCapacityIsRejected : Prop :=
  ∀ s : State, nMaxOf s.params.kMax < s.operand →
    Completes (exec .dec s) 0x62 0 0 0 0 0 0 0 fun t => t.outByte = s.outByte ∧ t.inFlight.valid = false

/-- R92: DEC of n = 0 completes with EmptyInput and every result register 0. -/
def Obligations.DecOfNothingIsEmptyInput : Prop :=
  ∀ s : State, s.operand = 0 → Completes (exec .dec s) 0x12 0 0 0 0 0 0 0 fun t => t.inFlight.valid = false

/-- R95: DEC of a length no ENC gives completes with StructurallyInvalid, whatever IN_BUF holds. -/
def Obligations.DecOfAnImpossibleLength : Prop :=
  ∀ s : State, s.operand ≤ nMaxOf s.params.kMax → s.operand ≠ 0 →
    requiredParityBits (s.operand - presentParityBits s.operand) ≠ presentParityBits s.operand →
    Completes (exec .dec s) 0x22 0 (presentParityBits s.operand) (s.operand - presentParityBits s.operand) s.operand
      0 0x00 0 fun t => t.inFlight.valid = false

/-- R99: a syndrome above n completes with Unrepairable, FLAGS = ERR_DET. -/
def Obligations.DecOfASyndromeAboveTheLength : Prop :=
  ∀ s : State, s.operand ≤ nMaxOf s.params.kMax → s.operand ≠ 0 →
    requiredParityBits (s.operand - presentParityBits s.operand) = presentParityBits s.operand →
    s.operand < s.operandSyndrome →
    Completes (exec .dec s) 0x32 0 (presentParityBits s.operand) (s.operand - presentParityBits s.operand) s.operand
      s.operandSyndrome 0x01 0 fun t => t.inFlight.valid = false

/-- R103: a data bit count that is no multiple of 8 completes with AlignmentError; what the locator found stays. -/
def Obligations.DecOfAnUnalignedMessage : Prop :=
  ∀ s : State, s.operand ≤ nMaxOf s.params.kMax → s.operand ≠ 0 →
    requiredParityBits (s.operand - presentParityBits s.operand) = presentParityBits s.operand →
    s.operandSyndrome ≤ s.operand → (s.operand - presentParityBits s.operand) % 8 ≠ 0 →
    Completes (exec .dec s) 0x42 0 (presentParityBits s.operand) (s.operand - presentParityBits s.operand) s.operand
      s.operandSyndrome (if s.operandSyndrome = 0 then 0x08 else 0x0F) s.operandSyndrome fun t =>
        t.inFlight.valid = false

/-- R100, R101, R102, R104: DEC of a codeword with a message completes with OK; position s is corrected, and the data bits go
to OUT_BUF in order, most significant bit first. -/
def Obligations.DecWritesTheCorrectedMessage : Prop :=
  ∀ s : State, s.operand ≤ nMaxOf s.params.kMax → s.operand ≠ 0 →
    requiredParityBits (s.operand - presentParityBits s.operand) = presentParityBits s.operand →
    s.operandSyndrome ≤ s.operand → (s.operand - presentParityBits s.operand) % 8 = 0 →
    Completes (exec .dec s) 0x02 ((s.operand - presentParityBits s.operand) / 8) (presentParityBits s.operand)
      (s.operand - presentParityBits s.operand) s.operand s.operandSyndrome
      (if s.operandSyndrome = 0 then 0x18 else 0x1F) s.operandSyndrome fun t =>
        ∀ i p, (dataPos s.operand)[i]? = some p →
          (t.outByte (i / 8)).getLsbD (7 - i % 8) = (s.inBit (p - 1) ^^ decide (p = s.operandSyndrome))

/-- R107 (the spec marks it as derived from R95, R98 and R104): DEC of what ENC wrote, with no bit flipped, gives the message back: any state `u` of the same instance whose IN
stream holds the codeword and whose L.len is its length. -/
def Obligations.DecodeOfEncodeGivesTheMessageBack : Prop :=
  ∀ s t u : State, s.params.wf = true → s.operand ≤ s.params.kMax → exec .enc s = .next t →
    u.params = s.params → u.inFlight.len = t.results.outLen →
    (∀ j, j < t.results.outLen.toNat → u.inBit j = t.outBit j) →
    ∃ v, exec .dec u = .next v ∧ v.regValue .status = 0x02#32 ∧ v.results.syndrome = 0 ∧ v.regValue .flags = 0x18#32
      ∧ v.results.outLen = s.inFlight.len ∧ ∀ b, b < s.operand → v.outByte b = s.inByte b

/-- R106 (the spec marks it as derived from R98, R100 and R101): DEC of what ENC wrote with the one bit at position p flipped finds p, corrects it, and gives the message back. -/
def Obligations.DecodeCorrectsEverySingleFlip : Prop :=
  ∀ (s t u : State) (p : Nat), s.params.wf = true → s.operand ≤ s.params.kMax → exec .enc s = .next t →
    u.params = s.params → u.inFlight.len = t.results.outLen → 1 ≤ p → p ≤ t.results.outLen.toNat →
    (∀ j, j < t.results.outLen.toNat → u.inBit j = (t.outBit j ^^ decide (j + 1 = p))) →
    ∃ v, exec .dec u = .next v ∧ v.regValue .status = 0x02#32 ∧ v.results.syndrome = BitVec.ofNat 32 p
      ∧ v.results.flags.errDet = true ∧ v.results.flags.errCor = true ∧ v.results.errPos = BitVec.ofNat 32 p
      ∧ v.results.outLen = s.inFlight.len ∧ ∀ b, b < s.operand → v.outByte b = s.inByte b

/-- R108 (its outcomes are marked as derived from R98 and R102): two flips at p and q give s = p ⊕ q; with s ≤ n, DEC completes with OK and a wrong message; with s > n, it
completes with Unrepairable. -/
def Obligations.DecodeDoesNotDetectDoubleFlips : Prop :=
  ∀ (s t u : State) (p q : Nat), s.params.wf = true → s.operand ≤ s.params.kMax → exec .enc s = .next t →
    u.params = s.params → u.inFlight.len = t.results.outLen → 1 ≤ p → p < q → q ≤ t.results.outLen.toNat →
    (∀ j, j < t.results.outLen.toNat → u.inBit j = (t.outBit j ^^ decide (j + 1 = p) ^^ decide (j + 1 = q))) →
    ∃ v, exec .dec u = .next v ∧ v.results.syndrome = BitVec.ofNat 32 (p ^^^ q) ∧ p ^^^ q ≠ 0
      ∧ (p ^^^ q ≤ t.results.outLen.toNat →
          v.regValue .status = 0x02#32 ∧ v.regValue .flags = 0x1F#32 ∧ v.results.errPos = BitVec.ofNat 32 (p ^^^ q)
            ∧ v.results.outLen = s.inFlight.len ∧ ∃ b, b < s.operand ∧ v.outByte b ≠ s.inByte b)
      ∧ (t.results.outLen.toNat < p ^^^ q → v.regValue .status = 0x32#32)

/-! ### All commands -/

/-- R65: every command ends with BUSY = 0, DONE = 1 and L.valid = 0; it leaves the operands and everything else but the
result registers, STATUS and OUT_BUF as they were, every byte of IN_BUF among them (R30). That L.op and L.len keep
their values is the model's choice, not the spec's (log 13). -/
def Obligations.CommandsLeaveEverythingElse : Prop :=
  ∀ (i : Instr) (s : State), ∃ t, exec i s = .next t
    ∧ t.status.busy = false ∧ t.status.done = true ∧ t.inFlight = { s.inFlight with valid := false }
    ∧ t.params = s.params ∧ t.cmd = s.cmd ∧ t.inLen = s.inLen ∧ t.inBuf = s.inBuf ∧ t.inEpoch = s.inEpoch
    ∧ (∀ b, t.inByte b = s.inByte b) ∧ t.pending = s.pending ∧ t.reply = s.reply

/-- R67: OUT_BUF at each completion. RPB and every reject leave each byte; ENC and DEC leave each byte they do not write a
free value of a fresh draw (the model's form of it: log 5, log 7). -/
def Obligations.OutBufAtCompletion : Prop :=
  ∀ s : State,
    (∀ t, exec .rpb s = .next t → ∀ b, t.outByte b = s.outByte b)
      ∧ (∀ b, s.completeIllegal.outByte b = s.outByte b)
      ∧ (∀ t, exec .enc s = .next t →
          (t.status.code = .capacityExceeded → ∀ b, t.outByte b = s.outByte b)
            ∧ (t.status.code = .ok → ∀ b, bytesFor (8 * s.operand + requiredParityBits (8 * s.operand)) ≤ b →
                t.outByte b = freeOutByte s.draws b))
      ∧ (∀ t, exec .dec s = .next t →
          (t.status.code = .capacityExceeded → ∀ b, t.outByte b = s.outByte b)
            ∧ (t.status.code = .ok → ∀ b, (s.operand - presentParityBits s.operand) / 8 ≤ b →
                t.outByte b = freeOutByte s.draws b)
            ∧ (t.status.code ≠ .capacityExceeded → t.status.code ≠ .ok → ∀ b, t.outByte b = freeOutByte s.draws b))

/-- R69: what a completion writes is a function of the command, L.len and the IN bits the command reads: two states of one
instance that agree on these agree on STATUS, on every result register and on the OUT_BUF bytes that are defined. -/
def Obligations.CompletionDependsOnlyOnTheOperands : Prop :=
  ∀ (i : Instr) (s u : State), u.params = s.params → u.inFlight.len = s.inFlight.len →
    (i = .enc → ∀ j, j < 8 * s.operand → u.inBit j = s.inBit j) →
    (i = .dec → ∀ j, j < s.operand → u.inBit j = s.inBit j) →
    ∃ t v, exec i s = .next t ∧ exec i u = .next v ∧ v.status = t.status ∧ v.results = t.results
      ∧ (i = .enc → t.status.code = .ok → ∀ b, b < bytesFor (8 * s.operand + requiredParityBits (8 * s.operand)) →
          v.outByte b = t.outByte b)
      ∧ (i = .dec → t.status.code = .ok → ∀ b, b < (s.operand - presentParityBits s.operand) / 8 →
          v.outByte b = t.outByte b)

/-- R120: after any completion, of a command or of an illegal word, whatever its status code, the next write to CMD is
accepted. -/
def Obligations.NoStatusCodeStopsTheBlock : Prop :=
  ∀ (s t : State) (v : Word), ((∃ i, exec i s = .next t) ∨ t = s.completeIllegal) →
    t.hostMoves (.write (t.params.base + 0x0008) 4 v) →
    ∃ u, step t = .next u ∧ u.cmd = v ∧ u.inFlight = { valid := true, op := v, len := t.inLen }
      ∧ u.regValue .status = 0x00000001#32

/-! ### Whole-machine rules -/

/-- R13: only the completion of a command writes the result registers, and a reset clears them. -/
def Obligations.ResultsChangeOnlyAtCompletionOrReset : Prop :=
  ∀ s t : State, step s = .next t → t.results ≠ s.results →
    (s.blockMoves ∧ s.inFlight.valid = true ∧ t.status.done = true) ∨ s.resetMoves

/-- R75, R46: once the host has read DONE = 1, the command is over, and STATUS, the result registers and OUT_BUF keep its
values until a write to CMD or a reset. -/
def Obligations.ResultsStayUntilTheNextCommandOrReset : Prop :=
  (∀ s t : State, s.Inv → CommandEnds s t → s.status.done = true ∧ t.status = s.status ∧ t.inFlight.valid = false)
    ∧ ∀ s t : State, s.Inv → s.status.done = true → step s = .next t →
      (t.status = s.status ∧ t.results = s.results ∧ ∀ b, t.outByte b = s.outByte b)
        ∨ (∃ v, s.hostMoves (.write (s.params.base + 0x0008) 4 v)) ∨ s.resetMoves

/-- R30: no command ever writes IN_BUF: a byte of it changes only by a host write to that very byte, or by a reset. -/
def Obligations.InBufChangesOnlyByHostWriteOrReset : Prop :=
  ∀ (s t : State) (b : Nat), step s = .next t → t.inByte b ≠ s.inByte b →
    (∃ v, s.hostMoves (.write (s.params.base + 0x1000 + b) 1 v) ∧ s.status.busy = false) ∨ s.resetMoves

/-- R16, R17: ID and PARAM are constants of the instance: no step, reset included, changes them. -/
def Obligations.IdAndParamNeverChange : Prop :=
  ∀ s t : State, step s = .next t →
    t.params = s.params ∧ t.regValue .id = 0x48414D31#32 ∧ t.regValue .param = s.regValue .param

/-- R7, R19, R26 to R28, R30, R31, R34: the invariant State.Inv (Safety.lean) is kept by every step, from every state. -/
def Obligations.EveryStepKeepsTheInvariant : Prop :=
  ∀ s t : State, s.Inv → step s = .next t → t.Inv

/-- The invariant holds after reset, of every legal instance. -/
def Obligations.ResetStateMeetsTheInvariant : Prop :=
  ∀ p : Params, p.wf = true → (State.resetWith p).Inv
end

