-- ==== Sys2Proof/Laws/Geometry.lean ====
section
/-! SUPPORT. What the position functions and the search loop answer. -/

namespace Sys2Proof.Machine

@[simp] theorem mem_positions (n p : Nat) : p ∈ positions n ↔ 1 ≤ p ∧ p ≤ n := by
  simp [positions, List.mem_range'_1]
  omega

@[simp] theorem positions_length (n : Nat) : (positions n).length = n := by simp [positions]

theorem positions_pairwise (n : Nat) : (positions n).Pairwise (· < ·) := List.pairwise_lt_range'

theorem positions_succ (n : Nat) : positions (n + 1) = positions n ++ [n + 1] := by
  simp [positions, List.range'_concat, Nat.add_comm]

@[simp] theorem isPow2_two_pow (i : Nat) : isPow2 (2 ^ i) = true := by
  simp only [isPow2, Bool.and_eq_true, decide_eq_true_eq, beq_iff_eq]
  refine ⟨Nat.one_le_two_pow, ?_⟩
  apply Nat.eq_of_testBit_eq
  intro j
  simp only [Nat.testBit_and, Nat.testBit_two_pow, Nat.testBit_two_pow_sub_one, Nat.zero_testBit, Bool.and_eq_false_iff,
    decide_eq_false_iff_not]
  omega

/-- isPow2 holds of the powers of two and of nothing else. -/
theorem isPow2_iff (p : Nat) : isPow2 p = true ↔ ∃ i, p = 2 ^ i := by
  constructor
  · intro h
    simp only [isPow2, Bool.and_eq_true, decide_eq_true_eq, beq_iff_eq] at h
    obtain ⟨hp, hand⟩ := h
    refine ⟨p.log2, ?_⟩
    have hlo : 2 ^ p.log2 ≤ p := Nat.log2_self_le (by omega)
    have hhi : p < 2 ^ (p.log2 + 1) := Nat.lt_log2_self
    by_contra hne
    have hlt : 2 ^ p.log2 < p := lt_of_le_of_ne hlo (fun h => hne h.symm)
    have htop : ∀ q, 2 ^ p.log2 ≤ q → q < 2 ^ (p.log2 + 1) → q.testBit p.log2 = true := by
      intro q h1 h2
      have h3 : q / 2 ^ p.log2 = 1 := by
        rw [Nat.div_eq_iff (by positivity)]
        rw [Nat.pow_succ] at h2
        omega
      rw [Nat.testBit_eq_decide_div_mod_eq, h3]
      decide
    have h0 := congrArg (fun q => q.testBit p.log2) hand
    simp only [Nat.testBit_and, Nat.zero_testBit, htop p hlo hhi, htop (p - 1) (by omega) (by omega)] at h0
    exact absurd h0 (by decide)
  · rintro ⟨i, rfl⟩
    exact isPow2_two_pow i

@[simp] theorem mem_dataPos (n p : Nat) : p ∈ dataPos n ↔ 1 ≤ p ∧ p ≤ n ∧ isPow2 p = false := by
  simp [dataPos, and_assoc]

theorem dataPos_pairwise (n : Nat) : (dataPos n).Pairwise (· < ·) := (positions_pairwise n).filter _

theorem dataPos_nodup (n : Nat) : (dataPos n).Nodup := (dataPos_pairwise n).imp fun h => Nat.ne_of_lt h

theorem isDataPos_iff_mem (p n : Nat) : isDataPos p n = true ↔ p ∈ dataPos n := by
  simp [isDataPos, and_assoc]

/-- Everything the loop of requiredParityBits can answer: every r it passed over fails the condition, and it stops at one
that meets it unless its steps ran out. -/
theorem parityBitsFrom_spec (m fuel r : Nat) :
    r ≤ parityBitsFrom m fuel r ∧ parityBitsFrom m fuel r ≤ r + fuel
      ∧ (∀ q, r ≤ q → q < parityBitsFrom m fuel r → 2 ^ q < m + q + 1)
      ∧ (parityBitsFrom m fuel r < r + fuel →
          m + parityBitsFrom m fuel r + 1 ≤ 2 ^ parityBitsFrom m fuel r) := by
  induction fuel generalizing r with
  | zero => simp [parityBitsFrom]; omega
  | succ fuel ih =>
    simp only [parityBitsFrom]
    split_ifs with h
    · obtain ⟨h1, h2, h3, h4⟩ := ih (r + 1)
      refine ⟨by omega, by omega, fun q hq hq' => ?_, fun hlt => h4 (by omega)⟩
      rcases Nat.eq_or_lt_of_le hq with rfl | hq
      · exact h
      · exact h3 q hq hq'
    · exact ⟨le_refl _, by omega, fun q h1 h2 => by omega, fun _ => by omega⟩

theorem bytesFor_mono {a b : Nat} (h : a ≤ b) : bytesFor a ≤ bytesFor b := by
  simp only [bytesFor]
  omega

theorem bytesFor_eight_mul (k : Nat) : bytesFor (8 * k) = k := by
  simp only [bytesFor]
  omega

/-- A bit of the stream lies in one of its bytes. -/
theorem div_eight_lt_bytesFor {j bits : Nat} (h : j < bits) : j / 8 < bytesFor bits := by
  simp only [bytesFor]
  omega

end Sys2Proof.Machine
end

