-- ==== Sys2Proof/Laws/Codec.lean ====
section
/-! SUPPORT. One law per internal function of the codec: what each leaves at each position, and the bits of the syndrome. -/

namespace Sys2Proof.Machine

/-! ### Positions of a working copy -/

@[simp] theorem Codeword.length_setBit (c : Codeword) (p : Nat) (b : Bool) : (c.setBit p b).length = c.length := by
  simp [Codeword.setBit]

/-- What every position holds after one bit has been set. -/
theorem Codeword.bit_setBit (c : Codeword) {p q : Nat} (b : Bool) (hp : 1 ≤ p) (hq : 1 ≤ q) :
    (c.setBit p b).bit q = if q = p ∧ p ≤ c.length then b else c.bit q := by
  simp only [Codeword.bit, Codeword.setBit, List.getD_eq_getElem?_getD, List.getElem?_set]
  by_cases h : q = p
  · subst h
    by_cases hl : q ≤ c.length
    · simp [hl, show q - 1 < c.length by omega]
    · simp [hl, show ¬ q - 1 < c.length by omega]
  · simp [h, show p - 1 ≠ q - 1 by omega]

theorem Codeword.bit_setBit_ne (c : Codeword) {p q : Nat} (b : Bool) (hp : 1 ≤ p) (hq : 1 ≤ q) (h : q ≠ p) :
    (c.setBit p b).bit q = c.bit q := by
  simp [Codeword.bit_setBit c b hp hq, h]

/-! ### Exclusive-or over positions -/

@[simp] theorem Codeword.xorOver_nil (c : Codeword) : c.xorOver [] = false := rfl

theorem Codeword.foldl_xor (c : Codeword) (ps : List Nat) (a : Bool) :
    ps.foldl (fun acc p => acc ^^ c.bit p) a = (a ^^ c.xorOver ps) := by
  induction ps generalizing a with
  | nil => simp
  | cons p ps ih =>
    simp only [Codeword.xorOver, List.foldl_cons]
    rw [ih, ih]
    simp

@[simp] theorem Codeword.xorOver_cons (c : Codeword) (p : Nat) (ps : List Nat) :
    c.xorOver (p :: ps) = (c.bit p ^^ c.xorOver ps) := by
  conv_lhs => rw [Codeword.xorOver, List.foldl_cons, Codeword.foldl_xor]
  simp

theorem Codeword.xorOver_congr {c c' : Codeword} {ps : List Nat} (h : ∀ p ∈ ps, c.bit p = c'.bit p) :
    c.xorOver ps = c'.xorOver ps := by
  induction ps with
  | nil => rfl
  | cons p ps ih => simp [h p (by simp), ih fun q hq => h q (by simp [hq])]

/-- Splitting off one position of a list that holds it once. -/
theorem Codeword.xorOver_filter_ne {c : Codeword} {ps : List Nat} (hn : ps.Nodup) {q : Nat} (hq : q ∈ ps) :
    c.xorOver ps = (c.bit q ^^ c.xorOver (ps.filter (· != q))) := by
  induction ps with
  | nil => simp at hq
  | cons p ps ih =>
    obtain ⟨hp, hn⟩ := List.nodup_cons.mp hn
    by_cases h : p = q
    · subst h
      have : ps.filter (· != p) = ps := List.filter_eq_self.mpr fun x hx => by
        simp only [bne_iff_ne, ne_eq]
        rintro rfl
        exact hp hx
      simp [this]
    · have hq' : q ∈ ps := by simpa [show q ≠ p from fun e => h e.symm] using hq
      rw [List.filter_cons_of_pos (by simpa using h), Codeword.xorOver_cons, Codeword.xorOver_cons, ih hn hq']
      simp only [← Bool.xor_assoc, Bool.xor_comm (c.bit p)]

/-! ### The injector (42_encode.md R84) -/

theorem map_fst_zip_sublist (l : List Nat) (d : List Bool) : ((l.zip d).map Prod.fst).Sublist l := by
  induction l generalizing d with
  | nil => simp
  | cons a l ih =>
    cases d with
    | nil => simp
    | cons b d => simpa using ih d

theorem length_foldl_setBit (l : List (Nat × Bool)) (c : Codeword) :
    (l.foldl (fun c pd => Codeword.setBit c pd.1 pd.2) c).length = c.length := by
  induction l generalizing c with
  | nil => rfl
  | cons x l ih => simp [ih]

@[simp] theorem inject_length (d : List Bool) (n : Nat) : (inject d n).length = n := by
  simp [inject, length_foldl_setBit]

/-- Setting positions that do not include q leaves q. -/
theorem bit_foldl_setBit_of_not_mem {l : List (Nat × Bool)} {c : Codeword} {q : Nat} (hq : 1 ≤ q)
    (hl : ∀ x ∈ l, 1 ≤ x.1) (h : ∀ x ∈ l, x.1 ≠ q) :
    Codeword.bit (l.foldl (fun c pd => Codeword.setBit c pd.1 pd.2) c) q = c.bit q := by
  induction l generalizing c with
  | nil => rfl
  | cons x l ih =>
    rw [List.foldl_cons, ih (fun y hy => hl y (by simp [hy])) (fun y hy => h y (by simp [hy]))]
    exact Codeword.bit_setBit_ne c _ (hl x (by simp)) hq fun e => h x (by simp) e.symm

/-- Setting distinct positions leaves each at the value it was given. -/
theorem bit_foldl_setBit_of_mem {l : List (Nat × Bool)} {c : Codeword} {x : Nat × Bool}
    (hl : ∀ y ∈ l, 1 ≤ y.1 ∧ y.1 ≤ c.length) (hn : (l.map Prod.fst).Nodup) (hx : x ∈ l) :
    Codeword.bit (l.foldl (fun c pd => Codeword.setBit c pd.1 pd.2) c) x.1 = x.2 := by
  induction l generalizing c with
  | nil => simp at hx
  | cons y l ih =>
    obtain ⟨hy, hn⟩ := List.nodup_cons.mp hn
    rw [List.foldl_cons]
    rcases List.mem_cons.mp hx with rfl | hx
    · rw [bit_foldl_setBit_of_not_mem (hl x (by simp)).1 (fun z hz => (hl z (by simp [hz])).1)
        fun z hz e => hy (List.mem_map.mpr ⟨z, hz, e⟩)]
      simp [Codeword.bit_setBit c _ (hl x (by simp)).1 (hl x (by simp)).1, (hl x (by simp)).2]
    · exact ih (fun z hz => by simpa using hl z (by simp [hz])) hn hx

/-- The injector leaves d[t] at the t-th data position. -/
theorem inject_bit_data {d : List Bool} {n t : Nat} (ht : t < (dataPos n).length) (hd : t < d.length) :
    (inject d n).bit (dataPos n)[t] = d[t] := by
  have hmem : ((dataPos n)[t], d[t]) ∈ (dataPos n).zip d := by
    rw [List.mem_iff_getElem]
    exact ⟨t, by simp [ht, hd], by simp⟩
  refine bit_foldl_setBit_of_mem (x := ((dataPos n)[t], d[t])) (fun y hy => ?_) ?_ hmem
  · have := (mem_dataPos n y.1).mp (List.of_mem_zip (a := y.1) (b := y.2) hy).1
    simp only [List.length_replicate]
    exact ⟨this.1, this.2.1⟩
  · exact (dataPos_nodup n).sublist (map_fst_zip_sublist _ _)

/-- The injector leaves 0 at every other position. -/
theorem inject_bit_parity {d : List Bool} {n q : Nat} (hq : 1 ≤ q) (h : isPow2 q = true) : (inject d n).bit q = false := by
  have hmem : ∀ x ∈ (dataPos n).zip d, x.1 ∈ dataPos n := fun x hx => (List.of_mem_zip (a := x.1) (b := x.2) hx).1
  rw [inject, bit_foldl_setBit_of_not_mem hq]
  · simp only [Codeword.bit, List.getD_eq_getElem?_getD, List.getElem?_replicate]
    split_ifs <;> rfl
  · exact fun x hx => ((mem_dataPos n x.1).mp (hmem x hx)).1
  · rintro x hx rfl
    simpa [h] using (mem_dataPos n x.1).mp (hmem x hx)

/-! ### The parity generator (42_encode.md R85) -/

/-- Among the positions with bit i set, only 2^i is a power of two. -/
theorem testBit_two_pow_eq (i j : Nat) : (2 ^ j).testBit i = decide (j = i) := Nat.testBit_two_pow

/-- A parity bit depends on data positions only. -/
theorem parityBit_congr {c c' : Codeword} {n i : Nat}
    (h : ∀ p, 1 ≤ p → p ≤ n → isPow2 p = false → c.bit p = c'.bit p) : parityBit c n i = parityBit c' n i := by
  refine Codeword.xorOver_congr fun p hp => ?_
  simp only [List.mem_filter, mem_positions, Bool.and_eq_true, bne_iff_ne, ne_eq] at hp
  refine h p hp.1.1 hp.1.2 ?_
  by_contra hpow
  obtain ⟨j, rfl⟩ := (isPow2_iff p).mp (by simpa using hpow)
  have := hp.2.1
  rw [testBit_two_pow_eq] at this
  exact hp.2.2 (by rw [of_decide_eq_true this])

/-- Everything the parity generator does: it keeps the length and every position but 2^0, …, 2^(r-1), and leaves there the
parity bits of the data. -/
theorem generateParity_spec (c : Codeword) (n r : Nat) :
    (generateParity c n r).length = c.length
      ∧ (∀ q, 1 ≤ q → (∀ i, i < r → q ≠ 2 ^ i) → (generateParity c n r).bit q = c.bit q)
      ∧ (∀ i, i < r → 2 ^ i ≤ c.length → (generateParity c n r).bit (2 ^ i) = parityBit c n i) := by
  induction r with
  | zero => simp [generateParity]
  | succ r ih =>
    obtain ⟨h1, h2, h3⟩ := ih
    have hstep : generateParity c n (r + 1)
        = (generateParity c n r).setBit (2 ^ r) (parityBit (generateParity c n r) n r) := by
      simp [generateParity, List.range_succ]
    have hpar : parityBit (generateParity c n r) n r = parityBit c n r := parityBit_congr fun p hp _ hpow =>
      h2 p hp fun i _ e => by simp [e] at hpow
    rw [hstep, hpar]
    refine ⟨by simp [h1], fun q hq hne => ?_, fun i hi hlen => ?_⟩
    · rw [Codeword.bit_setBit_ne _ _ Nat.one_le_two_pow hq (hne r (by omega))]
      exact h2 q hq fun i hi => hne i (by omega)
    · rw [Codeword.bit_setBit _ _ Nat.one_le_two_pow Nat.one_le_two_pow]
      rcases Nat.lt_succ_iff_lt_or_eq.mp hi with hi | rfl
      · rw [if_neg fun h => by
          have := Nat.pow_right_injective (le_refl 2) h.1
          omega]
        exact h3 i hi hlen
      · rw [if_pos ⟨rfl, by rw [h1]; exact hlen⟩]

/-- A codeword has n positions. -/
@[simp] theorem encodeBits_length (d : List Bool) (n r : Nat) : (encodeBits d n r).length = n := by
  simp [encodeBits, (generateParity_spec (inject d n) n r).1]

/-- The data positions of a codeword hold the data bits, in order (42_encode.md R84). -/
theorem encodeBits_bit_data {d : List Bool} {n r t : Nat} (ht : t < (dataPos n).length) (hd : t < d.length) :
    (encodeBits d n r).bit (dataPos n)[t] = d[t] := by
  have hp := (mem_dataPos n (dataPos n)[t]).mp (List.getElem_mem ht)
  rw [encodeBits, (generateParity_spec (inject d n) n r).2.1 _ hp.1 fun i _ e => by simp [e] at hp]
  exact inject_bit_data ht hd

/-- Parity position 2^i of a codeword holds the exclusive-or of the other positions with bit i set (42_encode.md R85). -/
theorem encodeBits_bit_parity {d : List Bool} {n r i : Nat} (hi : i < r) (hn : 2 ^ i ≤ n) :
    (encodeBits d n r).bit (2 ^ i) = parityBit (encodeBits d n r) n i := by
  obtain ⟨h1, h2, h3⟩ := generateParity_spec (inject d n) n r
  rw [encodeBits, h3 i hi (by simpa using hn)]
  exact parityBit_congr fun p hp _ hpow => (h2 p hp fun j _ e => by simp [e] at hpow).symm

/-! ### The syndrome calculator (43_decode.md R97) -/

/-- A check sum is its parity bit against the bit at 2^i. -/
theorem checkSum_eq {c : Codeword} {n i : Nat} (hn : 2 ^ i ≤ n) : checkSum c n i = (c.bit (2 ^ i) ^^ parityBit c n i) := by
  have hmem : 2 ^ i ∈ (positions n).filter fun p => p.testBit i := by
    simp [hn, Nat.one_le_two_pow, Nat.testBit_two_pow_self]
  have hnd : ((positions n).filter fun p => p.testBit i).Nodup :=
    ((positions_pairwise n).filter _).imp fun h => Nat.ne_of_lt h
  rw [checkSum, Codeword.xorOver_filter_ne hnd hmem, parityBit, List.filter_filter]
  congr 3
  funext p
  exact Bool.and_comm _ _

/-- The syndrome's bits are the failing checks (40_command.md R72: the sum involves no carries). -/
theorem syndrome_spec (c : Codeword) (n r : Nat) :
    syndrome c n r < 2 ^ r ∧ ∀ i, (syndrome c n r).testBit i = (decide (i < r) && checkSum c n i) := by
  induction r with
  | zero => simp [syndrome]
  | succ r ih =>
    obtain ⟨hlt, hbits⟩ := ih
    have hstep : syndrome c n (r + 1) = if checkSum c n r then syndrome c n r + 2 ^ r else syndrome c n r := by
      simp [syndrome, List.range_succ]
    rw [hstep]
    split_ifs with h
    · refine ⟨by rw [Nat.pow_succ]; omega, fun i => ?_⟩
      rw [Nat.add_comm]
      rcases Nat.lt_trichotomy i r with hi | rfl | hi
      · rw [Nat.testBit_two_pow_add_gt hi, hbits]
        simp [hi, show i < r + 1 by omega]
      · rw [Nat.testBit_two_pow_add_eq, hbits]
        simp [h]
      · have : 2 ^ r + syndrome c n r < 2 ^ i :=
          lt_of_lt_of_le (by rw [Nat.pow_succ]; omega) (Nat.pow_le_pow_right (by omega) (show r + 1 ≤ i from hi))
        rw [Nat.testBit_lt_two_pow this]
        simp [show ¬ i < r + 1 by omega]
    · refine ⟨by rw [Nat.pow_succ]; omega, fun i => ?_⟩
      rw [hbits]
      rcases Nat.lt_trichotomy i r with hi | rfl | hi
      · simp [hi, show i < r + 1 by omega]
      · simp [h]
      · simp [show ¬ i < r by omega, show ¬ i < r + 1 by omega]

/-! ### The corrector and the extractor (43_decode.md R101, R102) -/

@[simp] theorem correct_length (c : Codeword) (s : Nat) : (correct c s).length = c.length := by
  simp only [correct]
  split_ifs <;> simp

/-- The corrector flips position s and nothing else. -/
theorem correct_bit (c : Codeword) {s q : Nat} (hs : s ≤ c.length) (hq : 1 ≤ q) :
    (correct c s).bit q = (c.bit q ^^ decide (q = s)) := by
  simp only [correct]
  split_ifs with h
  · simp [h, show q ≠ 0 by omega]
  · rw [Codeword.bit_setBit c _ (by omega) hq]
    by_cases e : q = s
    · simp [e, hs]
    · simp [e]

@[simp] theorem extract_length (c : Codeword) (n : Nat) : (extract c n).length = (dataPos n).length := by
  simp [extract]

theorem extract_getElem (c : Codeword) {n t : Nat} (h : t < (extract c n).length) :
    (extract c n)[t] = c.bit ((dataPos n)[t]'(by simpa using h)) := by
  simp [extract]

end Sys2Proof.Machine
end

