-- ==== Sys2Proof/Laws/Memory.lean ====
section
/-! SUPPORT. The laws of a buffer's bytes: what a read finds after a write, that every operation keeps the canonical form, and that the form makes equal memories equal data. -/

namespace Sys2Proof.Machine

/-- The canonical form as a proposition. -/
theorem Memory.wf_iff (m : Memory) : m.wf = true ↔ m.Pairwise fun x y => x.1 < y.1 := by
  simp [Memory.wf]

/-- `below` as a proposition. -/
theorem Memory.below_iff (m : Memory) (size : Nat) : m.below size = true ↔ ∀ c ∈ m, c.1 < size := by
  simp [Memory.below]

theorem Memory.nil_wf : Memory.wf [] = true := by simp [Memory.wf_iff]

theorem Memory.nil_below (size : Nat) : Memory.below [] size = true := by simp [Memory.below_iff]

@[simp] theorem Memory.read_nil (i : Nat) : Memory.read [] i = none := rfl

/-- What every read after one write finds, at the written index and at every other. -/
theorem Memory.read_write (m : Memory) (i j : Nat) (v : Byte) :
    (m.write i v).read j = if j = i then some v else m.read j := by
  induction m with
  | nil => simp [Memory.write, Memory.read]
  | cons c rest ih =>
    obtain ⟨a, b⟩ := c
    simp only [Memory.write]
    split_ifs <;> simp_all [Memory.read]

/-- The indices a write leaves listed. -/
theorem Memory.mem_write {m : Memory} {i : Nat} {v : Byte} {c : Host.Cell} (h : c ∈ m.write i v) :
    c = (i, v) ∨ c ∈ m := by
  induction m with
  | nil => exact .inl (by simpa [Memory.write] using h)
  | cons d rest ih =>
    obtain ⟨a, b⟩ := d
    simp only [Memory.write] at h
    split_ifs at h <;> simp only [List.mem_cons] at h ⊢ <;> tauto

/-- A write keeps the canonical form. -/
theorem Memory.write_wf {m : Memory} (h : m.wf = true) (i : Nat) (v : Byte) : (m.write i v).wf = true := by
  rw [Memory.wf_iff] at h ⊢
  induction m with
  | nil => simp [Memory.write]
  | cons c rest ih =>
    obtain ⟨a, b⟩ := c
    obtain ⟨hhead, htail⟩ := List.pairwise_cons.mp h
    simp only [Memory.write]
    split_ifs with h1 h2
    · refine List.pairwise_cons.mpr ⟨?_, h⟩
      intro d hd
      rcases List.mem_cons.mp hd with rfl | hd
      · exact h1
      · exact lt_trans h1 (hhead d hd)
    · subst h2
      exact List.pairwise_cons.mpr ⟨hhead, htail⟩
    · refine List.pairwise_cons.mpr ⟨?_, ih htail⟩
      intro d hd
      rcases Memory.mem_write hd with rfl | hd
      · show a < i
        omega
      · exact hhead d hd

/-- A write below the size stays below it. -/
theorem Memory.write_below {m : Memory} {size : Nat} (h : m.below size = true) {i : Nat} (hi : i < size) (v : Byte) :
    (m.write i v).below size = true := by
  rw [Memory.below_iff] at h ⊢
  intro c hc
  rcases Memory.mem_write hc with rfl | hc
  · exact hi
  · exact h c hc

/-- Every index `fromBytes` lists lies in its range. -/
theorem Memory.mem_fromBytes {start : Nat} {bs : List Byte} {c : Host.Cell} (h : c ∈ Memory.fromBytes start bs) :
    start ≤ c.1 ∧ c.1 < start + bs.length := by
  induction bs generalizing start with
  | nil => simp [Memory.fromBytes] at h
  | cons b bs ih =>
    simp only [Memory.fromBytes, List.mem_cons] at h
    rcases h with rfl | h
    · simp
    · have := ih h
      simp only [List.length_cons]
      omega

/-- `fromBytes` is in canonical form. -/
theorem Memory.fromBytes_wf (start : Nat) (bs : List Byte) : (Memory.fromBytes start bs).wf = true := by
  rw [Memory.wf_iff]
  induction bs generalizing start with
  | nil => simp [Memory.fromBytes]
  | cons b bs ih =>
    refine List.pairwise_cons.mpr ⟨fun c hc => ?_, ih (start + 1)⟩
    exact (Memory.mem_fromBytes hc).1

/-- `fromBytes 0` stays below any size that holds its bytes. -/
theorem Memory.fromBytes_below {bs : List Byte} {size : Nat} (h : bs.length ≤ size) :
    (Memory.fromBytes 0 bs).below size = true := by
  rw [Memory.below_iff]
  intro c hc
  have := (Memory.mem_fromBytes hc).2
  omega

/-- What a read of `fromBytes` finds. -/
theorem Memory.read_fromBytes (start : Nat) (bs : List Byte) (i : Nat) :
    (Memory.fromBytes start bs).read i = if start ≤ i then bs[i - start]? else none := by
  induction bs generalizing start with
  | nil => simp [Memory.fromBytes]
  | cons b bs ih =>
    simp only [Memory.fromBytes, Memory.read, ih]
    rcases Nat.lt_trichotomy i start with h | rfl | h
    · simp [show i ≠ start by omega, show ¬ start + 1 ≤ i by omega, show ¬ start ≤ i by omega]
    · simp
    · obtain ⟨k, rfl⟩ : ∃ k, i = start + 1 + k := ⟨i - start - 1, by omega⟩
      simp [show start + 1 + k - start = k + 1 by omega, show start ≤ start + 1 + k by omega,
        show start + 1 + k ≠ start by omega]

/-- The reads of `fromBytes 0`. -/
theorem Memory.read_fromBytes_zero (bs : List Byte) (i : Nat) : (Memory.fromBytes 0 bs).read i = bs[i]? := by
  simp [Memory.read_fromBytes]

/-- Below its first index a canonical memory lists nothing. -/
theorem Memory.read_eq_none_of_lt {m : Memory} {i : Nat} (h : ∀ c ∈ m, i < c.1) : m.read i = none := by
  induction m with
  | nil => rfl
  | cons c rest ih =>
    obtain ⟨a, b⟩ := c
    have ha : i < a := h (a, b) (by simp)
    simp only [Memory.read, if_neg (show i ≠ a by omega)]
    exact ih fun d hd => h d (by simp [hd])

/-- Equal canonical memories are equal data. -/
theorem Memory.ext_of_wf {m m' : Memory} (h : m.wf = true) (h' : m'.wf = true) (hread : ∀ i, m.read i = m'.read i) :
    m = m' := by
  rw [Memory.wf_iff] at h h'
  induction m generalizing m' with
  | nil =>
    cases m' with
    | nil => rfl
    | cons c rest => simpa [Memory.read] using hread c.1
  | cons c rest ih =>
    obtain ⟨a, b⟩ := c
    obtain ⟨hhead, htail⟩ := List.pairwise_cons.mp h
    cases m' with
    | nil => simpa [Memory.read] using hread a
    | cons c' rest' =>
      obtain ⟨a', b'⟩ := c'
      obtain ⟨hhead', htail'⟩ := List.pairwise_cons.mp h'
      have key : a = a' := by
        rcases Nat.lt_trichotomy a a' with hlt | heq | hlt
        · have h1 := hread a
          have h2 : Memory.read ((a', b') :: rest') a = none := Memory.read_eq_none_of_lt fun d hd => by
            rcases List.mem_cons.mp hd with rfl | hd
            · exact hlt
            · exact lt_trans hlt (hhead' d hd)
          rw [h2] at h1
          simp [Memory.read] at h1
        · exact heq
        · have h1 := hread a'
          have h2 : Memory.read ((a, b) :: rest) a' = none := Memory.read_eq_none_of_lt fun d hd => by
            rcases List.mem_cons.mp hd with rfl | hd
            · exact hlt
            · exact lt_trans hlt (hhead d hd)
          rw [h2] at h1
          simp [Memory.read] at h1
      subst key
      have hb : b = b' := by simpa [Memory.read] using hread a
      subst hb
      congr 1
      refine ih htail htail' fun i => ?_
      by_cases hi : i = a
      · subst hi
        rw [Memory.read_eq_none_of_lt fun d hd => hhead d hd, Memory.read_eq_none_of_lt fun d hd => hhead' d hd]
      · simpa [Memory.read, hi] using hread i

/-- Both buffers after reset are in canonical form. -/
theorem State.resetWith_buffers_wf (p : Config.Params) :
    (State.resetWith p).inBuf.wf = true ∧ (State.resetWith p).outBuf.wf = true :=
  ⟨Memory.nil_wf, Memory.nil_wf⟩

end Sys2Proof.Machine
end

