-- ==== Sys2Proof/Laws/Operands.lean ====
section
/-! SUPPORT. What the operand forms hold, and which bit of which byte the packing puts a stream bit in. -/

namespace Sys2Proof.Machine

@[simp] theorem dataBits_length (k : Nat) (input : Nat → Bool) : (dataBits k input).length = 8 * k := by
  simp [dataBits]

theorem dataBits_getElem {k t : Nat} (input : Nat → Bool) (h : t < (dataBits k input).length) :
    (dataBits k input)[t] = input t := by
  simp [dataBits]

/-- The serialiser reads only the message bits (20_memory.md R39). -/
theorem dataBits_congr {k : Nat} {input input' : Nat → Bool} (h : ∀ j, j < 8 * k → input j = input' j) :
    dataBits k input = dataBits k input' :=
  List.map_congr_left fun j hj => h j (List.mem_range.mp hj)

@[simp] theorem loadCodeword_length (n : Nat) (input : Nat → Bool) : (loadCodeword n input).length = n := by
  simp [loadCodeword]

/-- c[p] = IN[p-1] (43_decode.md R96). -/
theorem loadCodeword_bit {n p : Nat} (input : Nat → Bool) (hp : 1 ≤ p) (hn : p ≤ n) :
    (loadCodeword n input).bit p = input (p - 1) := by
  simp [Codeword.bit, loadCodeword, positions, show p - 1 < n by omega,
    show 1 + (p - 1) - 1 = p - 1 by omega]

/-- DEC reads only the codeword bits (20_memory.md R39). -/
theorem loadCodeword_congr {n : Nat} {input input' : Nat → Bool} (h : ∀ j, j < n → input j = input' j) :
    loadCodeword n input = loadCodeword n input' :=
  List.map_congr_left fun p hp => h (p - 1) (by
    have := (mem_positions n p).mp hp
    omega)

/-- Bit 7 - i of a packed byte is bit i of its bits (43_decode.md R104). -/
theorem packByte_bit (bits : List Bool) {i : Nat} (h : i < 8) :
    (packByte bits).getLsbD (7 - i) = bits.getD i false := by
  have key : ∀ b0 b1 b2 b3 b4 b5 b6 b7 : Bool, ∀ k : Fin 8,
      BitVec.getLsbD (w := 8) (BitVec.ofBool b0 ++ BitVec.ofBool b1 ++ BitVec.ofBool b2 ++ BitVec.ofBool b3
        ++ BitVec.ofBool b4 ++ BitVec.ofBool b5 ++ BitVec.ofBool b6 ++ BitVec.ofBool b7) (7 - k.val)
        = [b0, b1, b2, b3, b4, b5, b6, b7].getD k.val false := by
    intro b0 b1 b2 b3 b4 b5 b6 b7
    cases b0 <;> cases b1 <;> cases b2 <;> cases b3 <;> cases b4 <;> cases b5 <;> cases b6 <;> cases b7 <;> decide
  rw [packByte, key _ _ _ _ _ _ _ _ ⟨i, h⟩]
  interval_cases i <;> rfl

@[simp] theorem packBytes_length (count : Nat) (bits : List Bool) : (packBytes count bits).length = count := by
  induction count generalizing bits with
  | zero => rfl
  | succ count ih => simp [packBytes, ih]

/-- Byte b of a packed stream is packed from its bits 8b on. -/
theorem packBytes_getElem {count b : Nat} (bits : List Bool) (h : b < (packBytes count bits).length) :
    (packBytes count bits)[b] = packByte (bits.drop (8 * b)) := by
  induction count generalizing bits b with
  | zero => simp [packBytes] at h
  | succ count ih =>
    cases b with
    | zero => simp [packBytes]
    | succ b =>
      simp only [packBytes, List.getElem_cons_succ]
      rw [ih]
      simp [show 8 * (b + 1) = 8 + 8 * b by omega]

@[simp] theorem packStream_length (bits : List Bool) : (packStream bits).length = bytesFor bits.length := by
  simp [packStream]

/-- Stream bit j lies in bit 7 - (j mod 8) of byte j div 8, and the padding is 0 (20_memory.md R38, R39). -/
theorem packStream_bit {bits : List Bool} {j : Nat} (h : j / 8 < (packStream bits).length) :
    ((packStream bits)[j / 8]).getLsbD (7 - j % 8) = bits.getD j false := by
  simp only [packStream] at h ⊢
  rw [packBytes_getElem, packByte_bit _ (Nat.mod_lt _ (by omega))]
  simp only [List.getD_eq_getElem?_getD, List.getElem?_drop]
  rw [Nat.div_add_mod]

end Sys2Proof.Machine
end

