-- ==== Sys2Proof/Laws/PerInstr.lean ====
section
/-! SUPPORT. The statements made per command, about the command as syntax. -/

namespace Sys2Proof.Laws.CommandWord

/-- The word of a command is one the host may write: RSV is zero and OP is the command's opcode (30_encoding.md R53, R54). -/
def Statement (i : Instr) : Prop :=
  i.wf = true ∧ cmdWordWf (encodeCmd i) = true ∧ rsvField (encodeCmd i) = 0#28 ∧ opField (encodeCmd i) = opcode i

theorem rpb : Statement .rpb := by unfold Statement; decide

theorem enc : Statement .enc := by unfold Statement; decide

theorem dec : Statement .dec := by unfold Statement; decide

end Sys2Proof.Laws.CommandWord
end

