-- ==== Sys2Proof/Laws/State.lean ====
section
/-! SUPPORT. What each named update does to each field of State: one lemma per field per update, so that no proof unfolds an update. -/

namespace Sys2Proof.Machine

open Sys2Proof.Config

variable (s : State)

@[simp] theorem State.replyWord_params (v : Word) : (s.replyWord v).params = s.params := rfl
@[simp] theorem State.replyWord_cmd (v : Word) : (s.replyWord v).cmd = s.cmd := rfl
@[simp] theorem State.replyWord_status (v : Word) : (s.replyWord v).status = s.status := rfl
@[simp] theorem State.replyWord_inLen (v : Word) : (s.replyWord v).inLen = s.inLen := rfl
@[simp] theorem State.replyWord_results (v : Word) : (s.replyWord v).results = s.results := rfl
@[simp] theorem State.replyWord_inBuf (v : Word) : (s.replyWord v).inBuf = s.inBuf := rfl
@[simp] theorem State.replyWord_outBuf (v : Word) : (s.replyWord v).outBuf = s.outBuf := rfl
@[simp] theorem State.replyWord_inFlight (v : Word) : (s.replyWord v).inFlight = s.inFlight := rfl
@[simp] theorem State.replyWord_inEpoch (v : Word) : (s.replyWord v).inEpoch = s.inEpoch := rfl
@[simp] theorem State.replyWord_outEpoch (v : Word) : (s.replyWord v).outEpoch = s.outEpoch := rfl
@[simp] theorem State.replyWord_draws (v : Word) : (s.replyWord v).draws = s.draws := rfl
@[simp] theorem State.replyWord_pending (v : Word) : (s.replyWord v).pending = s.pending := rfl
@[simp] theorem State.replyWord_reply (v : Word) : (s.replyWord v).reply = .word v := rfl

@[simp] theorem State.replyByte_params (v : Byte) : (s.replyByte v).params = s.params := rfl
@[simp] theorem State.replyByte_cmd (v : Byte) : (s.replyByte v).cmd = s.cmd := rfl
@[simp] theorem State.replyByte_status (v : Byte) : (s.replyByte v).status = s.status := rfl
@[simp] theorem State.replyByte_inLen (v : Byte) : (s.replyByte v).inLen = s.inLen := rfl
@[simp] theorem State.replyByte_results (v : Byte) : (s.replyByte v).results = s.results := rfl
@[simp] theorem State.replyByte_inBuf (v : Byte) : (s.replyByte v).inBuf = s.inBuf := rfl
@[simp] theorem State.replyByte_outBuf (v : Byte) : (s.replyByte v).outBuf = s.outBuf := rfl
@[simp] theorem State.replyByte_inFlight (v : Byte) : (s.replyByte v).inFlight = s.inFlight := rfl
@[simp] theorem State.replyByte_inEpoch (v : Byte) : (s.replyByte v).inEpoch = s.inEpoch := rfl
@[simp] theorem State.replyByte_outEpoch (v : Byte) : (s.replyByte v).outEpoch = s.outEpoch := rfl
@[simp] theorem State.replyByte_draws (v : Byte) : (s.replyByte v).draws = s.draws := rfl
@[simp] theorem State.replyByte_pending (v : Byte) : (s.replyByte v).pending = s.pending := rfl
@[simp] theorem State.replyByte_reply (v : Byte) : (s.replyByte v).reply = .byte v := rfl

@[simp] theorem State.drawWord_params (m : Word) : (s.drawWord m).params = s.params := rfl
@[simp] theorem State.drawWord_cmd (m : Word) : (s.drawWord m).cmd = s.cmd := rfl
@[simp] theorem State.drawWord_status (m : Word) : (s.drawWord m).status = s.status := rfl
@[simp] theorem State.drawWord_inLen (m : Word) : (s.drawWord m).inLen = s.inLen := rfl
@[simp] theorem State.drawWord_results (m : Word) : (s.drawWord m).results = s.results := rfl
@[simp] theorem State.drawWord_inBuf (m : Word) : (s.drawWord m).inBuf = s.inBuf := rfl
@[simp] theorem State.drawWord_outBuf (m : Word) : (s.drawWord m).outBuf = s.outBuf := rfl
@[simp] theorem State.drawWord_inFlight (m : Word) : (s.drawWord m).inFlight = s.inFlight := rfl
@[simp] theorem State.drawWord_inEpoch (m : Word) : (s.drawWord m).inEpoch = s.inEpoch := rfl
@[simp] theorem State.drawWord_outEpoch (m : Word) : (s.drawWord m).outEpoch = s.outEpoch := rfl
@[simp] theorem State.drawWord_draws (m : Word) : (s.drawWord m).draws = s.draws + 1 := rfl
@[simp] theorem State.drawWord_pending (m : Word) : (s.drawWord m).pending = s.pending := rfl
@[simp] theorem State.drawWord_reply (m : Word) : (s.drawWord m).reply = .word (freeBusyWord s.draws &&& m) := rfl

@[simp] theorem State.drawByte_params : (s.drawByte).params = s.params := rfl
@[simp] theorem State.drawByte_cmd : (s.drawByte).cmd = s.cmd := rfl
@[simp] theorem State.drawByte_status : (s.drawByte).status = s.status := rfl
@[simp] theorem State.drawByte_inLen : (s.drawByte).inLen = s.inLen := rfl
@[simp] theorem State.drawByte_results : (s.drawByte).results = s.results := rfl
@[simp] theorem State.drawByte_inBuf : (s.drawByte).inBuf = s.inBuf := rfl
@[simp] theorem State.drawByte_outBuf : (s.drawByte).outBuf = s.outBuf := rfl
@[simp] theorem State.drawByte_inFlight : (s.drawByte).inFlight = s.inFlight := rfl
@[simp] theorem State.drawByte_inEpoch : (s.drawByte).inEpoch = s.inEpoch := rfl
@[simp] theorem State.drawByte_outEpoch : (s.drawByte).outEpoch = s.outEpoch := rfl
@[simp] theorem State.drawByte_draws : (s.drawByte).draws = s.draws + 1 := rfl
@[simp] theorem State.drawByte_pending : (s.drawByte).pending = s.pending := rfl
@[simp] theorem State.drawByte_reply : (s.drawByte).reply = .byte (freeBusyByte s.draws) := rfl

@[simp] theorem State.takeEvent_params : (s.takeEvent).params = s.params := rfl
@[simp] theorem State.takeEvent_cmd : (s.takeEvent).cmd = s.cmd := rfl
@[simp] theorem State.takeEvent_status : (s.takeEvent).status = s.status := rfl
@[simp] theorem State.takeEvent_inLen : (s.takeEvent).inLen = s.inLen := rfl
@[simp] theorem State.takeEvent_results : (s.takeEvent).results = s.results := rfl
@[simp] theorem State.takeEvent_inBuf : (s.takeEvent).inBuf = s.inBuf := rfl
@[simp] theorem State.takeEvent_outBuf : (s.takeEvent).outBuf = s.outBuf := rfl
@[simp] theorem State.takeEvent_inFlight : (s.takeEvent).inFlight = s.inFlight := rfl
@[simp] theorem State.takeEvent_inEpoch : (s.takeEvent).inEpoch = s.inEpoch := rfl
@[simp] theorem State.takeEvent_outEpoch : (s.takeEvent).outEpoch = s.outEpoch := rfl
@[simp] theorem State.takeEvent_draws : (s.takeEvent).draws = s.draws := rfl
@[simp] theorem State.takeEvent_pending : (s.takeEvent).pending = s.pending.tail := rfl
@[simp] theorem State.takeEvent_reply : (s.takeEvent).reply = .nothing := rfl

@[simp] theorem State.accept_params (v : Word) : (s.accept v).params = s.params := rfl
@[simp] theorem State.accept_cmd (v : Word) : (s.accept v).cmd = v := rfl
@[simp] theorem State.accept_status (v : Word) : (s.accept v).status = { busy := true, done := false, code := .ok } := rfl
@[simp] theorem State.accept_inLen (v : Word) : (s.accept v).inLen = s.inLen := rfl
@[simp] theorem State.accept_results (v : Word) : (s.accept v).results = s.results := rfl
@[simp] theorem State.accept_inBuf (v : Word) : (s.accept v).inBuf = s.inBuf := rfl
@[simp] theorem State.accept_outBuf (v : Word) : (s.accept v).outBuf = s.outBuf := rfl
@[simp] theorem State.accept_inFlight (v : Word) : (s.accept v).inFlight = { valid := true, op := v, len := s.inLen } := rfl
@[simp] theorem State.accept_inEpoch (v : Word) : (s.accept v).inEpoch = s.inEpoch := rfl
@[simp] theorem State.accept_outEpoch (v : Word) : (s.accept v).outEpoch = s.outEpoch := rfl
@[simp] theorem State.accept_draws (v : Word) : (s.accept v).draws = s.draws := rfl
@[simp] theorem State.accept_pending (v : Word) : (s.accept v).pending = s.pending := rfl
@[simp] theorem State.accept_reply (v : Word) : (s.accept v).reply = s.reply := rfl

@[simp] theorem State.finish_params (code : StatusCode) : (s.finish code).params = s.params := rfl
@[simp] theorem State.finish_cmd (code : StatusCode) : (s.finish code).cmd = s.cmd := rfl
@[simp] theorem State.finish_status (code : StatusCode) : (s.finish code).status = { busy := false, done := true, code := code } := rfl
@[simp] theorem State.finish_inLen (code : StatusCode) : (s.finish code).inLen = s.inLen := rfl
@[simp] theorem State.finish_results (code : StatusCode) : (s.finish code).results = s.results := rfl
@[simp] theorem State.finish_inBuf (code : StatusCode) : (s.finish code).inBuf = s.inBuf := rfl
@[simp] theorem State.finish_outBuf (code : StatusCode) : (s.finish code).outBuf = s.outBuf := rfl
@[simp] theorem State.finish_inFlight (code : StatusCode) : (s.finish code).inFlight = { s.inFlight with valid := false } := rfl
@[simp] theorem State.finish_inEpoch (code : StatusCode) : (s.finish code).inEpoch = s.inEpoch := rfl
@[simp] theorem State.finish_outEpoch (code : StatusCode) : (s.finish code).outEpoch = s.outEpoch := rfl
@[simp] theorem State.finish_draws (code : StatusCode) : (s.finish code).draws = s.draws := rfl
@[simp] theorem State.finish_pending (code : StatusCode) : (s.finish code).pending = s.pending := rfl
@[simp] theorem State.finish_reply (code : StatusCode) : (s.finish code).reply = s.reply := rfl

@[simp] theorem State.writeResults_params (r : Results) : (s.writeResults r).params = s.params := rfl
@[simp] theorem State.writeResults_cmd (r : Results) : (s.writeResults r).cmd = s.cmd := rfl
@[simp] theorem State.writeResults_status (r : Results) : (s.writeResults r).status = s.status := rfl
@[simp] theorem State.writeResults_inLen (r : Results) : (s.writeResults r).inLen = s.inLen := rfl
@[simp] theorem State.writeResults_results (r : Results) : (s.writeResults r).results = r := rfl
@[simp] theorem State.writeResults_inBuf (r : Results) : (s.writeResults r).inBuf = s.inBuf := rfl
@[simp] theorem State.writeResults_outBuf (r : Results) : (s.writeResults r).outBuf = s.outBuf := rfl
@[simp] theorem State.writeResults_inFlight (r : Results) : (s.writeResults r).inFlight = s.inFlight := rfl
@[simp] theorem State.writeResults_inEpoch (r : Results) : (s.writeResults r).inEpoch = s.inEpoch := rfl
@[simp] theorem State.writeResults_outEpoch (r : Results) : (s.writeResults r).outEpoch = s.outEpoch := rfl
@[simp] theorem State.writeResults_draws (r : Results) : (s.writeResults r).draws = s.draws := rfl
@[simp] theorem State.writeResults_pending (r : Results) : (s.writeResults r).pending = s.pending := rfl
@[simp] theorem State.writeResults_reply (r : Results) : (s.writeResults r).reply = s.reply := rfl

@[simp] theorem State.writeOut_bytes_params (bs : List Byte) : (s.writeOut (.bytes bs)).params = s.params := rfl
@[simp] theorem State.writeOut_bytes_cmd (bs : List Byte) : (s.writeOut (.bytes bs)).cmd = s.cmd := rfl
@[simp] theorem State.writeOut_bytes_status (bs : List Byte) : (s.writeOut (.bytes bs)).status = s.status := rfl
@[simp] theorem State.writeOut_bytes_inLen (bs : List Byte) : (s.writeOut (.bytes bs)).inLen = s.inLen := rfl
@[simp] theorem State.writeOut_bytes_results (bs : List Byte) : (s.writeOut (.bytes bs)).results = s.results := rfl
@[simp] theorem State.writeOut_bytes_inBuf (bs : List Byte) : (s.writeOut (.bytes bs)).inBuf = s.inBuf := rfl
@[simp] theorem State.writeOut_bytes_outBuf (bs : List Byte) : (s.writeOut (.bytes bs)).outBuf = Memory.fromBytes 0 bs := rfl
@[simp] theorem State.writeOut_bytes_inFlight (bs : List Byte) : (s.writeOut (.bytes bs)).inFlight = s.inFlight := rfl
@[simp] theorem State.writeOut_bytes_inEpoch (bs : List Byte) : (s.writeOut (.bytes bs)).inEpoch = s.inEpoch := rfl
@[simp] theorem State.writeOut_bytes_outEpoch (bs : List Byte) : (s.writeOut (.bytes bs)).outEpoch = s.draws := rfl
@[simp] theorem State.writeOut_bytes_draws (bs : List Byte) : (s.writeOut (.bytes bs)).draws = s.draws + 1 := rfl
@[simp] theorem State.writeOut_bytes_pending (bs : List Byte) : (s.writeOut (.bytes bs)).pending = s.pending := rfl
@[simp] theorem State.writeOut_bytes_reply (bs : List Byte) : (s.writeOut (.bytes bs)).reply = s.reply := rfl

@[simp] theorem State.complete_params (c : Completion) : (s.complete c).params = s.params := by
  cases c with | mk code results out => cases out <;> rfl
@[simp] theorem State.complete_cmd (c : Completion) : (s.complete c).cmd = s.cmd := by
  cases c with | mk code results out => cases out <;> rfl
@[simp] theorem State.complete_status (c : Completion) : (s.complete c).status = { busy := false, done := true, code := c.code } := rfl
@[simp] theorem State.complete_inLen (c : Completion) : (s.complete c).inLen = s.inLen := by
  cases c with | mk code results out => cases out <;> rfl
@[simp] theorem State.complete_results (c : Completion) : (s.complete c).results = c.results := rfl
@[simp] theorem State.complete_inBuf (c : Completion) : (s.complete c).inBuf = s.inBuf := by
  cases c with | mk code results out => cases out <;> rfl
@[simp] theorem State.complete_outBuf (c : Completion) : (s.complete c).outBuf = (s.writeOut c.out).outBuf := rfl
@[simp] theorem State.complete_inFlight (c : Completion) : (s.complete c).inFlight = { s.inFlight with valid := false } := by
  cases c with | mk code results out => cases out <;> rfl
@[simp] theorem State.complete_inEpoch (c : Completion) : (s.complete c).inEpoch = s.inEpoch := by
  cases c with | mk code results out => cases out <;> rfl
@[simp] theorem State.complete_outEpoch (c : Completion) : (s.complete c).outEpoch = (s.writeOut c.out).outEpoch := rfl
@[simp] theorem State.complete_draws (c : Completion) : (s.complete c).draws = (s.writeOut c.out).draws := rfl
@[simp] theorem State.complete_pending (c : Completion) : (s.complete c).pending = s.pending := by
  cases c with | mk code results out => cases out <;> rfl
@[simp] theorem State.complete_reply (c : Completion) : (s.complete c).reply = s.reply := by
  cases c with | mk code results out => cases out <;> rfl

@[simp] theorem State.assertReset_params : (s.assertReset).params = s.params := rfl
@[simp] theorem State.assertReset_cmd : (s.assertReset).cmd = 0 := rfl
@[simp] theorem State.assertReset_status : (s.assertReset).status = { busy := false, done := false, code := .ok } := rfl
@[simp] theorem State.assertReset_inLen : (s.assertReset).inLen = 0 := rfl
@[simp] theorem State.assertReset_results : (s.assertReset).results = Results.zero := rfl
@[simp] theorem State.assertReset_inBuf : (s.assertReset).inBuf = [] := rfl
@[simp] theorem State.assertReset_outBuf : (s.assertReset).outBuf = [] := rfl
@[simp] theorem State.assertReset_inFlight : (s.assertReset).inFlight = { valid := false, op := 0, len := 0 } := rfl
@[simp] theorem State.assertReset_inEpoch : (s.assertReset).inEpoch = s.draws := rfl
@[simp] theorem State.assertReset_outEpoch : (s.assertReset).outEpoch = s.draws := rfl
@[simp] theorem State.assertReset_draws : (s.assertReset).draws = s.draws + 1 := rfl
@[simp] theorem State.assertReset_pending : (s.assertReset).pending = s.pending := rfl
@[simp] theorem State.assertReset_reply : (s.assertReset).reply = .nothing := rfl

@[simp] theorem State.placeCommand_params (w : Word) : (s.placeCommand w).params = s.params := rfl
@[simp] theorem State.placeCommand_cmd (w : Word) : (s.placeCommand w).cmd = w := rfl
@[simp] theorem State.placeCommand_status (w : Word) : (s.placeCommand w).status = { busy := true, done := false, code := .ok } := rfl
@[simp] theorem State.placeCommand_inLen (w : Word) : (s.placeCommand w).inLen = s.inLen := rfl
@[simp] theorem State.placeCommand_results (w : Word) : (s.placeCommand w).results = s.results := rfl
@[simp] theorem State.placeCommand_inBuf (w : Word) : (s.placeCommand w).inBuf = s.inBuf := rfl
@[simp] theorem State.placeCommand_outBuf (w : Word) : (s.placeCommand w).outBuf = s.outBuf := rfl
@[simp] theorem State.placeCommand_inFlight (w : Word) : (s.placeCommand w).inFlight = { valid := true, op := w, len := s.inLen } := rfl
@[simp] theorem State.placeCommand_inEpoch (w : Word) : (s.placeCommand w).inEpoch = s.inEpoch := rfl
@[simp] theorem State.placeCommand_outEpoch (w : Word) : (s.placeCommand w).outEpoch = s.outEpoch := rfl
@[simp] theorem State.placeCommand_draws (w : Word) : (s.placeCommand w).draws = s.draws := rfl
@[simp] theorem State.placeCommand_pending (w : Word) : (s.placeCommand w).pending = .block :: s.pending := rfl
@[simp] theorem State.placeCommand_reply (w : Word) : (s.placeCommand w).reply = s.reply := rfl

@[simp] theorem State.writeOut_unchanged : s.writeOut .unchanged = s := rfl

@[simp] theorem State.completeIllegal_eq : s.completeIllegal = s.complete (.reject .illegalCommand) := rfl

@[simp] theorem State.resetWith_params (p : Params) : (State.resetWith p).params = p := rfl

/-- The bus and the commands read a buffer through these two only. -/
theorem State.inByte_congr {s t : State} (h : t.inBuf = s.inBuf) (he : t.inEpoch = s.inEpoch) : t.inByte = s.inByte := by
  funext b
  simp only [State.inByte, h, he]

theorem State.outByte_congr {s t : State} (h : t.outBuf = s.outBuf) (he : t.outEpoch = s.outEpoch) :
    t.outByte = s.outByte := by
  funext b
  simp only [State.outByte, h, he]

end Sys2Proof.Machine
end

