-- ==== Sys2Proof/Laws/Step.lean ====
section
/-! SUPPORT. Everything a shared operation and a step can do, said once: proofs cite these and unfold no operation. -/

namespace Sys2Proof.Machine

open Sys2Proof.Config

/-! ### Completion -/

/-- A completion that leaves OUT_BUF alone leaves every byte of it. -/
theorem State.complete_outByte_of_unchanged (s : State) {c : Completion} (h : c.out = .unchanged) :
    (s.complete c).outByte = s.outByte := by
  funext b
  simp only [State.outByte, State.complete_outBuf, State.complete_outEpoch, h, State.writeOut_unchanged]

/-- The OUT_BUF bytes after a completion that writes: the byte written, beyond them a fresh free value
(40_command.md R67). -/
theorem State.complete_outByte_of_bytes (s : State) {c : Completion} {bs : List Byte} (h : c.out = .bytes bs) (b : Nat) :
    (s.complete c).outByte b = bs[b]?.getD (freeOutByte s.draws b) := by
  simp only [State.outByte, State.complete_outBuf, State.complete_outEpoch, h, State.writeOut_bytes_outBuf,
    State.writeOut_bytes_outEpoch, Memory.read_fromBytes_zero]

/-- The OUT bits after a completion that writes a packed stream: its bits, and 0 in its padding. -/
theorem State.complete_outBit (s : State) {c : Completion} {bits : List Bool} (h : c.out = .bytes (packStream bits))
    {j : Nat} (hj : j / 8 < bytesFor bits.length) : (s.complete c).outBit j = bits.getD j false := by
  have hl : j / 8 < (packStream bits).length := by simpa using hj
  simp only [State.outBit, streamBit, State.complete_outByte_of_bytes s h, List.getElem?_eq_getElem hl, Option.getD_some]
  exact packStream_bit hl

/-- No completion touches IN_BUF (10_state.md R30). -/
theorem State.complete_inByte (s : State) (c : Completion) : (s.complete c).inByte = s.inByte :=
  State.inByte_congr (by simp) (by simp)

theorem exec_rpb (s : State) : exec .rpb s = .next (s.complete (rpbCompletion s.operand)) := rfl

theorem exec_enc (s : State) :
    exec .enc s = .next (s.complete (encCompletion s.params.kMax s.operand s.inBit)) := rfl

theorem exec_dec (s : State) :
    exec .dec s = .next (s.complete (decCompletion (instanceNMax s.params) s.operand s.inBit)) := rfl

/-- Every command answers a next state, and that state is one completion. -/
theorem exec_completes (i : Instr) (s : State) : ∃ c, exec i s = .next (s.complete c) := by
  cases i with
  | rpb => exact ⟨_, exec_rpb s⟩
  | enc => exact ⟨_, exec_enc s⟩
  | dec => exact ⟨_, exec_dec s⟩

/-- Everything the command in flight can do: the completion of one of the three commands, or reject(IllegalCommand). -/
theorem State.runCommand_cases (s : State) :
    (s.decoded = .command .rpb ∧ s.runCommand = .next (s.complete (rpbCompletion s.operand)))
      ∨ (s.decoded = .command .enc
          ∧ s.runCommand = .next (s.complete (encCompletion s.params.kMax s.operand s.inBit)))
      ∨ (s.decoded = .command .dec
          ∧ s.runCommand = .next (s.complete (decCompletion (instanceNMax s.params) s.operand s.inBit)))
      ∨ (∃ why, s.decoded = .illegal why ∧ s.runCommand = .next (s.complete (.reject .illegalCommand))) := by
  unfold State.runCommand
  cases h : s.decoded with
  | command i =>
    cases i with
    | rpb => exact .inl ⟨rfl, exec_rpb s⟩
    | enc => exact .inr (.inl ⟨rfl, exec_enc s⟩)
    | dec => exact .inr (.inr (.inl ⟨rfl, exec_dec s⟩))
  | illegal why => exact .inr (.inr (.inr ⟨why, rfl, rfl⟩))

/-- Everything the block's turn can do. -/
theorem State.blockTurn_cases {s t : State} (h : s.blockTurn = .next t) :
    (s.inFlight.valid = true ∧ s.runCommand = .next t) ∨ (s.inFlight.valid = false ∧ t = s) := by
  unfold State.blockTurn at h
  split_ifs at h with hv
  · exact .inl ⟨hv, h⟩
  · exact .inr ⟨by simpa using hv, by simpa using h.symm⟩

/-- ENC's two completions (42_encode.md R81). -/
theorem encCompletion_cases (kMax k : Nat) (input : Nat → Bool) :
    (kMax < k ∧ encCompletion kMax k input = .reject .capacityExceeded)
      ∨ (k ≤ kMax ∧ (encCompletion kMax k input).code = .ok
          ∧ (encCompletion kMax k input).out = .bytes (packStream (encCodeword k input))
          ∧ (encCompletion kMax k input).results =
              { Results.zero with
                outLen := BitVec.ofNat 32 (8 * k + requiredParityBits (8 * k))
                resR := BitVec.ofNat 32 (requiredParityBits (8 * k))
                resM := BitVec.ofNat 32 (8 * k)
                resN := BitVec.ofNat 32 (8 * k + requiredParityBits (8 * k)) }) := by
  unfold encCompletion
  split_ifs with h
  · exact .inl ⟨h, rfl⟩
  · exact .inr ⟨by omega, rfl, rfl, rfl⟩

/-- DEC's six ways to complete, each with its condition (43_decode.md R90, R105). -/
theorem decCompletion_cases (nMax n : Nat) (input : Nat → Bool) :
    (nMax < n ∧ decCompletion nMax n input = .reject .capacityExceeded)
      ∨ (n ≤ nMax ∧ n = 0 ∧ decCompletion nMax n input = decDone .emptyInput 0 0 0 0 Flags.none 0 [])
      ∨ (n ≤ nMax ∧ n ≠ 0 ∧ requiredParityBits (n - presentParityBits n) ≠ presentParityBits n
          ∧ decCompletion nMax n input = decDone .structurallyInvalid n (presentParityBits n)
              (n - presentParityBits n) 0 Flags.none 0 [])
      ∨ (n ≤ nMax ∧ n ≠ 0 ∧ requiredParityBits (n - presentParityBits n) = presentParityBits n
          ∧ decCompletion nMax n input = decLocated n (presentParityBits n) (n - presentParityBits n)
              (loadCodeword n input) (syndrome (loadCodeword n input) n (presentParityBits n))) := by
  unfold decCompletion decChecked
  split_ifs with h1 h2 h3
  · exact .inl ⟨h1, rfl⟩
  · exact .inr (.inl ⟨by omega, h2, rfl⟩)
  · exact .inr (.inr (.inl ⟨by omega, h2, h3, rfl⟩))
  · exact .inr (.inr (.inr ⟨by omega, h2, by simpa using h3, rfl⟩))

/-- The three ways DEC completes once it has a syndrome (43_decode.md R99 to R104). -/
theorem decLocated_cases (n r m : Nat) (c : Codeword) (s : Nat) :
    (n < s ∧ decLocated n r m c s = decDone .unrepairable n r m s Flags.unrepairable 0 [])
      ∨ (s ≤ n ∧ m % 8 ≠ 0 ∧ decLocated n r m c s = decDone .alignmentError n r m s (Flags.located s) 0 [])
      ∨ (s ≤ n ∧ m % 8 = 0 ∧ decLocated n r m c s
          = decDone .ok n r m s (Flags.located s).withMessage (m / 8) (packStream (extract (correct c s) n))) := by
  unfold decLocated
  split_ifs with h1 h2
  · exact .inl ⟨h1, rfl⟩
  · exact .inr (.inl ⟨by omega, h2, rfl⟩)
  · exact .inr (.inr ⟨by omega, by simpa using h2, rfl⟩)

/-! ### Host accesses -/

/-- The reserved bits of SYNDROME and FLAGS are 0 in what a read while BUSY = 1 leaves open (10_state.md R26, R27). -/
theorem Reg.openBits_reserved (w : Word) :
    (w &&& Reg.syndrome.openBits).extractLsb' 15 17 = 0#17 ∧ (w &&& Reg.flags.openBits).extractLsb' 5 27 = 0#27 := by
  simp only [BitVec.extractLsb'_and]
  constructor
  · rw [show Reg.syndrome.openBits.extractLsb' 15 17 = 0#17 by decide, BitVec.and_zero]
  · rw [show Reg.flags.openBits.extractLsb' 5 27 = 0#27 by decide, BitVec.and_zero]

/-- A read writes nothing but the reply and, for a free value, the draw counter (20_memory.md R43). -/
theorem State.readTarget_frame (s : State) (tg : Target) :
    ∃ r d, s.readTarget tg = { s with reply := r, draws := d } ∧ s.draws ≤ d := by
  cases tg <;> simp only [State.readTarget] <;> (try split_ifs) <;>
    first
      | exact ⟨_, _, rfl, le_refl _⟩
      | exact ⟨_, _, rfl, Nat.le_succ _⟩

/-- When a read answers a next state, and which. -/
theorem State.busRead_next {s t : State} {addr width : Nat} (h : s.busRead addr width = .next t) :
    inWindow s.params addr = true ∧ legalAccess (addr - s.params.base) width = true
      ∧ t = s.readTarget (target (addr - s.params.base)) := by
  unfold State.busRead at h
  split_ifs at h with h1 h2
  cases h
  exact ⟨by simpa using h1, by simpa using h2, rfl⟩

/-- When a write answers a next state, and which. -/
theorem State.busWrite_next {s t : State} {addr width : Nat} {v : Word} (h : s.busWrite addr width v = .next t) :
    inWindow s.params addr = true ∧ legalAccess (addr - s.params.base) width = true
      ∧ ¬(s.status.busy = true ∧ isOperandTarget s.params (target (addr - s.params.base)) = true)
      ∧ t = s.writeTarget v (target (addr - s.params.base)) := by
  unfold State.busWrite at h
  split_ifs at h with h1 h2 h3
  cases h
  exact ⟨by simpa using h1, by simpa using h2, by simpa using h3, rfl⟩

/-- Everything a write can do (20_memory.md R41): start a command, store IN_LEN, store one IN_BUF byte, or nothing. -/
theorem State.writeTarget_cases (s : State) (v : Word) (tg : Target) :
    (tg = .reg .cmd ∧ s.writeTarget v tg = s.accept v)
      ∨ (tg = .reg .inLen ∧ s.writeTarget v tg = { s with inLen := v })
      ∨ (∃ b, tg = .inBuf b ∧ b < instanceBufBytes s.params
          ∧ s.writeTarget v tg = { s with inBuf := s.inBuf.write b (v.extractLsb' 0 8) })
      ∨ (isOperandTarget s.params tg = false ∧ s.writeTarget v tg = s) := by
  cases tg with
  | reg r =>
    cases r with
    | cmd => exact .inl ⟨rfl, rfl⟩
    | inLen => exact .inr (.inl ⟨rfl, rfl⟩)
    | id | param | status | outLen | resR | resM | resN | syndrome | flags | errPos =>
      exact .inr (.inr (.inr ⟨rfl, rfl⟩))
  | inBuf b =>
    by_cases hb : b < instanceBufBytes s.params
    · exact .inr (.inr (.inl ⟨b, rfl, hb, by simp [State.writeTarget, hb]⟩))
    · exact .inr (.inr (.inr ⟨by simp [isOperandTarget, hb], by simp [State.writeTarget, hb]⟩))
  | reserved | outBuf b => exact .inr (.inr (.inr ⟨rfl, rfl⟩))

/-! ### One step -/

/-- Everything a step that answers a next state can be: the block's turn, a read, a write, or a reset, each taken from the
head of the schedule; an empty schedule gives the block the turn. -/
theorem step_cases {s t : State} (h : step s = .next t) :
    ((s.pending = [] ∨ s.pending.head? = some .block) ∧ s.takeEvent.blockTurn = .next t)
      ∨ (∃ addr width, s.pending.head? = some (.host (.read addr width)) ∧ s.takeEvent.busRead addr width = .next t)
      ∨ (∃ addr width v, s.pending.head? = some (.host (.write addr width v))
          ∧ s.takeEvent.busWrite addr width v = .next t)
      ∨ (s.pending.head? = some .reset ∧ t = s.takeEvent.assertReset) := by
  unfold step at h
  split at h
  · exact .inl ⟨.inl ‹_›, h⟩
  · exact .inl ⟨.inr (by simp [*]), h⟩
  · next op _ _ =>
    cases op with
    | read addr width => exact .inr (.inl ⟨addr, width, by simp [*], h⟩)
    | write addr width v => exact .inr (.inr (.inl ⟨addr, width, v, by simp [*], h⟩))
  · exact .inr (.inr (.inr ⟨by simp [*], by simpa using h.symm⟩))

end Sys2Proof.Machine
end

