-- ==== Sys2Proof/Tests/Slice0.lean ====
section
/-! SUPPORT. The model's own tests: ill-formed terms, words written out from the encoding, one step per vector of 95_test_vectors.md, and for every statement with hypotheses a state that meets them. -/

namespace Sys2Proof.Tests

open Sys2Proof.Config Sys2Proof.Machine

/-! ### Helpers -/

/-- Numbers as bytes. -/
def bytes (bs : List Nat) : List Byte := bs.map (BitVec.ofNat 8)

/-- The test instance (K_MAX = 16) with the word `op` in flight, operand length `len`, and `bs` at the start of IN_BUF. -/
def inFlight (op : Word) (len : Word) (bs : List Nat) : State :=
  { State.reset with
    cmd := op
    inLen := len
    inBuf := Memory.fromBytes 0 (bytes bs)
    inFlight := { valid := true, op := op, len := len }
    status := { busy := true, done := false, code := .ok } }

/-- The reset state with one host access to come. -/
def idle (op : HostOp) : State := { State.reset with pending := [.host op] }

/-- ENC "A" in flight, with one host access to come. -/
def busy (op : HostOp) : State := { inFlight 2#32 1#32 [0x41] with pending := [.host op] }

/-- The state after one command, or the state itself where there is none. -/
def after (i : Instr) (s : State) : State := (nextOf (exec i s)).getD s

/-- An outcome whose next state is `t` is the outcome `.next t`. -/
theorem next_of_nextOf {o : Host.Outcome State Fault Refusal} {t : State} (h : nextOf o = some t) : o = .next t := by
  cases o <;> simp_all [nextOf]

/-- STATUS and the seven result registers. -/
def report (s : State) : List Nat :=
  [Reg.status, .outLen, .resR, .resM, .resN, .syndrome, .flags, .errPos].map fun r => (s.regValue r).toNat

/-- The listed bytes of a buffer. -/
def contents (m : Memory) : List Nat := m.map fun c => c.2.toNat

/-- What a step answered on the bus. -/
def replyOf (s : State) : Option Reply := (nextOf (step s)).map State.reply

/-! ### Well-formedness: one ill-formed term for each check -/

/-- K_MAX is at least 1 (00_scope.md R7). -/
theorem test_params_kMax_zero_refused : Params.wf { kMax := 0, base := 0 } = false := by decide

/-- K_MAX is at most 4094 (00_scope.md R7). -/
theorem test_params_kMax_too_large_refused : Params.wf { kMax := 4095, base := 0 } = false := by decide

/-- BASE is a multiple of 0x4000 (70_reset_and_hazards.md R132). -/
theorem test_params_base_unaligned_refused : Params.wf { kMax := 16, base := 0x2000 } = false := by decide

/-- A word with RSV ≠ 0 is ill formed (30_encoding.md R53). -/
theorem test_word_reserved_refused : cmdWordWf 0x00000011#32 = false ∧ cmdWordWf 0x80000002#32 = false := by decide

/-- A word with an unassigned OP is ill formed (30_encoding.md R54). -/
theorem test_word_opcode_refused : cmdWordWf 0x00000000#32 = false ∧ cmdWordWf 0x00000004#32 = false := by decide

/-- The words of R54 are well formed. -/
theorem test_words_accepted : cmdWordWf 1#32 = true ∧ cmdWordWf 2#32 = true ∧ cmdWordWf 3#32 = true := by decide

/-! ### Decoding: RSV in bits [31:4], OP in bits [3:0], written out from 30_encoding.md R53, R54 -/

/-- RPB is OP = 0001. -/
theorem test_decode_rpb : decodeCmd 0b0000_0000_0000_0000_0000_0000_0000_0001#32 = .command .rpb := by decide

/-- ENC is OP = 0010. -/
theorem test_decode_enc : decodeCmd 0b0000_0000_0000_0000_0000_0000_0000_0010#32 = .command .enc := by decide

/-- DEC is OP = 0011. -/
theorem test_decode_dec : decodeCmd 0b0000_0000_0000_0000_0000_0000_0000_0011#32 = .command .dec := by decide

/-- The illegal words of 95_test_vectors.md 2.6. -/
theorem test_decode_illegal :
    decodeCmd 0x00000000#32 = .illegal .opcodeUnassigned ∧ decodeCmd 0x00000004#32 = .illegal .opcodeUnassigned
      ∧ decodeCmd 0x0000000F#32 = .illegal .opcodeUnassigned ∧ decodeCmd 0x00000011#32 = .illegal .reservedNonzero
      ∧ decodeCmd 0x80000002#32 = .illegal .reservedNonzero := by decide

/-- The table's three rows, by their number. -/
theorem test_table_words :
    decodeTableWord 32 1 = some .rpb ∧ decodeTableWord 32 2 = some .enc ∧ decodeTableWord 32 3 = some .dec
      ∧ decodeTableWord 32 0 = none := by decide

/-- The very next step after a placed word runs it, from reset (L.len = 0: 95_test_vectors.md 2.1, 2.2, 2.4). -/
theorem test_placed_word_runs :
    (nextOf (step (State.reset.withFetchWord 32 1))).map report = some [0x02, 0, 2, 0, 2, 0, 0, 0]
      ∧ (nextOf (step (State.reset.withFetchWord 32 2))).map report = some [0x02, 2, 2, 0, 2, 0, 0, 0]
      ∧ (nextOf (step (State.reset.withFetchWord 32 3))).map report = some [0x12, 0, 0, 0, 0, 0, 0, 0] := by decide

/-! ### One step per command (95_test_vectors.md 2.1 to 2.6) -/

/-- 2.1: m = 0xFFFFFFE0 needs 33 parity bits, and RES_N is truncated. -/
theorem test_rpb_truncates_resN :
    report (after .rpb (inFlight 1#32 0xFFFFFFE0#32 [])) = [0x02, 0, 33, 0xFFFFFFE0, 0x00000001, 0, 0, 0] := by decide

/-- 2.1: m = 5 is the first with r = 4. -/
theorem test_rpb_boundary : report (after .rpb (inFlight 1#32 5#32 [])) = [0x02, 0, 4, 5, 9, 0, 0, 0] := by decide

/-- 2.2: ENC "Hi". -/
theorem test_enc_hi :
    report (after .enc (inFlight 2#32 2#32 [0x48, 0x69])) = [0x02, 21, 5, 16, 21, 0, 0, 0]
      ∧ contents (after .enc (inFlight 2#32 2#32 [0x48, 0x69])).outBuf = [0x49, 0x86, 0x48] := by decide

/-- 2.6: ENC of 17 bytes is over capacity. -/
theorem test_enc_over_capacity :
    report (after .enc (inFlight 2#32 17#32 [])) = [0x62, 0, 0, 0, 0, 0, 0, 0] := by decide

/-- 2.3: DEC "Hi" with position 3 flipped. -/
theorem test_dec_flip :
    report (after .dec (inFlight 3#32 21#32 [0x69, 0x86, 0x48])) = [0x02, 2, 5, 16, 21, 3, 0x1F, 3]
      ∧ contents (after .dec (inFlight 3#32 21#32 [0x69, 0x86, 0x48])).outBuf = [0x48, 0x69] := by decide

/-- 2.4: DEC "00111" corrects position 2 and then fails on alignment. -/
theorem test_dec_unaligned :
    report (after .dec (inFlight 3#32 5#32 [0x38])) = [0x42, 0, 3, 2, 5, 2, 0x0F, 2] := by decide

/-- 2.6: 0x80000002 is illegal before its length is over capacity. -/
theorem test_illegal_word_has_priority :
    (nextOf (step (inFlight 0x80000002#32 17#32 []))).map report = some [0x52, 0, 0, 0, 0, 0, 0, 0] := by decide

/-! ### The bus (95_test_vectors.md 2.7) -/

/-- B1, B2. -/
theorem test_bus_constants :
    replyOf (idle (.read 0x0000 4)) = some (.word 0x48414D31#32)
      ∧ replyOf (idle (.read 0x0004 4)) = some (.word 0x00880010#32) := by decide

/-- B5, B11. -/
theorem test_bus_read_zero :
    replyOf (busy (.read 0x3FFC 4)) = some (.word 0#32) ∧ replyOf (busy (.read 0x1011 1)) = some (.byte 0#8) := by decide

/-- B7, B8, B9, B10. -/
theorem test_bus_access_errors :
    faultOf (step (idle (.read 0x000C 1))) = some (.accessError 0x000C)
      ∧ faultOf (step (idle (.read 0x0002 4))) = some (.accessError 0x0002)
      ∧ faultOf (step (idle (.read 0x1000 4))) = some (.accessError 0x1000)
      ∧ faultOf (step (idle (.write 0x2000 2 0#32))) = some (.accessError 0x2000) := by decide

/-- B13: the byte written is the byte read. -/
theorem test_bus_write_then_read :
    (nextOf (step (idle (.write 0x1000 1 0x5A#32)))).bind
      (fun s => replyOf { s with pending := [.host (.read 0x1000 1)] }) = some (.byte 0x5A#8) := by decide

/-- B15, B16, B17. -/
theorem test_bus_hazards :
    faultOf (step (busy (.write 0x0010 4 5#32))) = some (.hostHazard 0x0010)
      ∧ faultOf (step (busy (.write 0x0008 4 1#32))) = some (.hostHazard 0x0008)
      ∧ faultOf (step (busy (.write 0x1000 1 0#32))) = some (.hostHazard 0x1000) := by decide

/-- B18, B19: no hazard, and ignored. -/
theorem test_bus_ignored_writes :
    (nextOf (step (busy (.write 0x1011 1 0xFF#32)))).map State.inBuf = some [(0, 0x41#8)]
      ∧ (nextOf (step (busy (.write 0x2000 1 0xAA#32)))).map State.outBuf = some []
      ∧ (nextOf (step (busy (.write 0x0018 4 7#32)))).map State.results = some Results.zero := by decide

/-- B21: STATUS reads 1 while a command is in flight. -/
theorem test_bus_busy_status : replyOf (busy (.read 0x000C 4)) = some (.word 0x00000001#32) := by decide

/-- B22: reset while a command is in flight. -/
theorem test_reset_abandons :
    (nextOf (step { inFlight 2#32 1#32 [0x41] with pending := [.reset] })).map
      (fun s => (report s, s.cmd.toNat, s.inLen.toNat, s.inFlight.valid, contents s.inBuf)) =
    some ([0, 0, 0, 0, 0, 0, 0, 0], 0, 0, false, []) := by decide

/-! ### Witnesses: for every statement with hypotheses, states and operands that meet them together -/

/-- The hypothesis `blockMoves` holds with no event left, and with the block's turn next. -/
theorem blockMoves_inFlight (op len : Word) (bs : List Nat) : (inFlight op len bs).blockMoves := .inr rfl

theorem witness_DecoderFollowsTheFields :
    (0x00000010#32).extractLsb' 4 28 ≠ 0#28 ∧ (0x80000000#32).extractLsb' 4 28 ≠ 0#28
      ∧ ((0x00000001#32).extractLsb' 4 28 = 0#28 ∧ (0x00000001#32).extractLsb' 0 4 = 1#4)
      ∧ ((0x00000002#32).extractLsb' 4 28 = 0#28 ∧ (0x00000002#32).extractLsb' 0 4 = 2#4)
      ∧ ((0x00000003#32).extractLsb' 4 28 = 0#28 ∧ (0x00000003#32).extractLsb' 0 4 = 3#4)
      ∧ ((0x0000000F#32).extractLsb' 4 28 = 0#28 ∧ (0x0000000F#32).extractLsb' 0 4 ≠ 1#4
        ∧ (0x0000000F#32).extractLsb' 0 4 ≠ 2#4 ∧ (0x0000000F#32).extractLsb' 0 4 ≠ 3#4) := by decide

theorem witness_DecodeUndoesEncode : Instr.wf .rpb = true ∧ Instr.wf .enc = true ∧ Instr.wf .dec = true := by decide

theorem witness_EncodeUndoesDecode : decodeCmd 0x00000003#32 = .command .dec := by decide

theorem witness_StepRunsTheDecodedCommand :
    (inFlight 2#32 1#32 [0x41]).blockMoves ∧ (inFlight 2#32 1#32 [0x41]).inFlight.valid = true
      ∧ decodeCmd (inFlight 2#32 1#32 [0x41]).inFlight.op = .command .enc ∧ Instr.wf .enc = true :=
  ⟨blockMoves_inFlight _ _ _, rfl, by decide, rfl⟩

theorem witness_IllegalWordCompletesByRejection :
    (inFlight 0x11#32 1#32 []).blockMoves ∧ (inFlight 0x11#32 1#32 []).inFlight.valid = true
      ∧ decodeCmd (inFlight 0x11#32 1#32 []).inFlight.op = .illegal .reservedNonzero
      ∧ decodeCmd (inFlight 0x4#32 1#32 []).inFlight.op = .illegal .opcodeUnassigned :=
  ⟨blockMoves_inFlight _ _ _, rfl, by decide, by decide⟩

theorem witness_IdleBlockChangesNothing : State.reset.blockMoves ∧ State.reset.inFlight.valid = false := ⟨.inr rfl, rfl⟩

/-- A state with a command in flight meets the invariant, whatever events are still to come. -/
theorem inFlight_inv (p : List Event) : State.Inv { inFlight 2#32 1#32 [0x41] with pending := p } := by
  constructor <;> simp [inFlight, State.reset, State.resetWith, Results.zero, Flags.none] <;> decide

theorem witness_BusyBlockCompletesAfterAnyNumberOfPolls :
    State.Inv { inFlight 2#32 1#32 [0x41] with pending := poll testInstance 2 }
      ∧ (inFlight 2#32 1#32 [0x41]).status.busy = true := ⟨inFlight_inv _, rfl⟩

theorem witness_PollOfABusyBlockReadsOne :
    State.Inv (busy (.read 0x000C 4)) ∧ (busy (.read 0x000C 4)).status.busy = true
      ∧ (busy (.read 0x000C 4)).hostMoves (.read ((busy (.read 0x000C 4)).params.base + 0x000C) 4) :=
  ⟨inFlight_inv _, rfl, rfl⟩

/-- One illegal access per clause of 20_memory.md R42, at the borders of the windows. -/
theorem witness_IllegalAccessIsAccessError :
    ∀ x ∈ [(0x0FFC, 1), (0x0FFE, 4), (0x1000, 4), (0x2FFF, 2), (0x3000, 1), (0x3FFD, 4)],
      x.1 < 0x4000 ∧ ¬((0x1000 ≤ x.1 ∧ x.1 < 0x3000 ∧ x.2 = 1)
        ∨ (¬(0x1000 ≤ x.1 ∧ x.1 < 0x3000) ∧ x.2 = 4 ∧ x.1 % 4 = 0))
      ∧ (idle (.read x.1 x.2)).hostMoves (.read ((idle (.read x.1 x.2)).params.base + x.1) x.2) := by
  simp [State.hostMoves, idle, State.reset, State.resetWith, testInstance]

theorem witness_EveryLegalReadIsPerformed :
    ∀ x ∈ [(0x0000, 4), (0x0FFC, 4), (0x1000, 1), (0x2FFF, 1), (0x3000, 4), (0x3FFC, 4)],
      x.1 < 0x4000 ∧ ((0x1000 ≤ x.1 ∧ x.1 < 0x3000 ∧ x.2 = 1)
        ∨ (¬(0x1000 ≤ x.1 ∧ x.1 < 0x3000) ∧ x.2 = 4 ∧ x.1 % 4 = 0))
      ∧ (idle (.read x.1 x.2)).hostMoves (.read ((idle (.read x.1 x.2)).params.base + x.1) x.2) := by
  simp [State.hostMoves, idle, State.reset, State.resetWith, testInstance]

theorem witness_RegisterReadsFollowTheMap :
    (idle (.read 0x002C 4)).params.wf = true ∧ (idle (.read 0x002C 4)).status.busy = false
      ∧ (idle (.read 0x002C 4)).hostMoves (.read ((idle (.read 0x002C 4)).params.base + 0x002C) 4)
      ∧ (busy (.read 0x0010 4)).params.wf = true ∧ 0x0010 ∈ [0x0000, 0x0004, 0x0008, 0x0010]
      ∧ (busy (.read 0x0010 4)).hostMoves (.read ((busy (.read 0x0010 4)).params.base + 0x0010) 4) :=
  ⟨by decide, rfl, rfl, by decide, by decide, rfl⟩

theorem witness_ReservedOffsetsReadZeroAndIgnoreWrites :
    ∀ off ∈ [0x0030, 0x0FFC, 0x3000, 0x3FFC],
      ((0x0030 ≤ off ∧ off < 0x1000) ∨ (0x3000 ≤ off ∧ off < 0x4000)) ∧ off % 4 = 0
        ∧ (busy (.read off 4)).hostMoves (.read ((busy (.read off 4)).params.base + off) 4)
        ∧ (busy (.write off 4 7#32)).hostMoves (.write ((busy (.write off 4 7#32)).params.base + off) 4 7#32) := by
  simp [State.hostMoves, busy, inFlight, State.reset, State.resetWith, testInstance]

/-- The last byte of a buffer, the first one beyond it, and the last of the window. -/
theorem witness_BufferReadsGiveTheByte :
    ∀ b ∈ [16, 17, 0xFFF], b < 0x1000
      ∧ (idle (.read (0x1000 + b) 1)).hostMoves (.read ((idle (.read (0x1000 + b) 1)).params.base + 0x1000 + b) 1)
      ∧ (idle (.read (0x2000 + b) 1)).hostMoves (.read ((idle (.read (0x2000 + b) 1)).params.base + 0x2000 + b) 1)
      ∧ (idle (.read (0x2000 + b) 1)).status.busy = false := by
  simp [State.hostMoves, idle, State.reset, State.resetWith, testInstance]

/-- OUT_BUF[17], the first byte that is no storage, while BUSY = 1. -/
theorem witness_BufferReadsGiveTheByte_busy :
    (busy (.read 0x2011 1)).hostMoves (.read ((busy (.read 0x2011 1)).params.base + 0x2000 + 17) 1)
      ∧ (busy (.read 0x2011 1)).status.busy = true ∧ bytesFor (nMaxOf (busy (.read 0x2011 1)).params.kMax) ≤ 17 :=
  ⟨rfl, rfl, by decide⟩

theorem witness_BusyReadsReturnFreshFreeValues :
    (busy (.read 0x0024 4)).status.busy = true
      ∧ (busy (.read 0x0024 4)).hostMoves (.read ((busy (.read 0x0024 4)).params.base + 0x0024) 4)
      ∧ 16 < bytesFor (nMaxOf (busy (.read 0x2010 1)).params.kMax) ∧ (busy (.read 0x2010 1)).status.busy = true
      ∧ (busy (.read 0x2010 1)).hostMoves (.read ((busy (.read 0x2010 1)).params.base + 0x2000 + 16) 1) :=
  ⟨rfl, rfl, by decide, rfl, rfl⟩

theorem witness_ReadsChangeNoStateOfTheBlock :
    (idle (.read 0x0000 4)).hostMoves (.read 0x0000 4)
      ∧ step (idle (.read 0x0000 4)) = .next { State.reset with reply := .word 0x48414D31#32 } := ⟨rfl, rfl⟩

theorem witness_ReadsAreIdempotent :
    State.reset.status.busy = false
      ∧ step { State.reset with pending := [.host (.read 0x0000 4), .host (.read 0x0000 4)] } =
        .next { State.reset with pending := [.host (.read 0x0000 4)], reply := .word 0x48414D31#32 }
      ∧ step { State.reset with pending := [.host (.read 0x0000 4)], reply := .word 0x48414D31#32 } =
        .next { State.reset with pending := [], reply := .word 0x48414D31#32 } := ⟨rfl, rfl, rfl⟩

/-- Two polls while BUSY = 1. -/
theorem witness_ReadsAreIdempotent_busy :
    (∀ off, 0x000C = (inFlight 2#32 1#32 [0x41]).params.base + off → off ∉ [0x0014, 0x0018, 0x001C, 0x0020, 0x0024, 0x0028, 0x002C]
        ∧ ¬(0x2000 ≤ off ∧ off < 0x3000 ∧ off < 0x2000 + bytesFor (nMaxOf (inFlight 2#32 1#32 [0x41]).params.kMax)))
      ∧ (inFlight 2#32 1#32 [0x41]).status.busy = true
      ∧ step { (inFlight 2#32 1#32 [0x41]) with pending := [.host (.read 0x000C 4), .host (.read 0x000C 4)] } =
        .next { (inFlight 2#32 1#32 [0x41]) with pending := [.host (.read 0x000C 4)], reply := .word 0x00000001#32 }
      ∧ step { (inFlight 2#32 1#32 [0x41]) with pending := [.host (.read 0x000C 4)], reply := .word 0x00000001#32 } =
        .next { (inFlight 2#32 1#32 [0x41]) with pending := [], reply := .word 0x00000001#32 } :=
  ⟨fun off h => by
    have : off = 12 := by simpa [inFlight, inFlight, State.reset, State.resetWith, testInstance] using h.symm
    subst this; simp, rfl, rfl, rfl⟩

/-- A read-only register, a reserved offset, IN_BUF beyond its 17 bytes, OUT_BUF. -/
theorem witness_OtherWritesAreIgnored :
    ∀ x ∈ [(0x000C, 4), (0x3FFC, 4), (0x1011, 1), (0x1FFF, 1), (0x2000, 1)],
      x.1 < 0x4000 ∧ ((0x1000 ≤ x.1 ∧ x.1 < 0x3000 ∧ x.2 = 1)
        ∨ (¬(0x1000 ≤ x.1 ∧ x.1 < 0x3000) ∧ x.2 = 4 ∧ x.1 % 4 = 0))
      ∧ x.1 ≠ 0x0008 ∧ x.1 ≠ 0x0010
      ∧ ¬(0x1000 ≤ x.1 ∧ x.1 < 0x2000 ∧ x.1 < 0x1000 + bytesFor (nMaxOf State.reset.params.kMax))
      ∧ (busy (.write x.1 x.2 7#32)).hostMoves
          (.write ((busy (.write x.1 x.2 7#32)).params.base + x.1) x.2 7#32) := by
  have h : bytesFor (nMaxOf State.reset.params.kMax) = 17 := by decide
  rw [h]
  simp [State.hostMoves, busy, inFlight, State.reset, State.resetWith, testInstance]

theorem witness_CmdWriteIsAccepted :
    (idle (.write 0x0008 4 2#32)).status.busy = false
      ∧ (idle (.write 0x0008 4 2#32)).hostMoves (.write ((idle (.write 0x0008 4 2#32)).params.base + 0x0008) 4 2#32) :=
  ⟨rfl, rfl⟩

theorem witness_InLenWriteIsStored :
    (idle (.write 0x0010 4 2#32)).status.busy = false
      ∧ (idle (.write 0x0010 4 2#32)).hostMoves (.write ((idle (.write 0x0010 4 2#32)).params.base + 0x0010) 4 2#32) :=
  ⟨rfl, rfl⟩

theorem witness_InBufWriteStoresOneByte :
    (idle (.write 0x1010 1 0x5A#32)).status.busy = false
      ∧ 16 < bytesFor (nMaxOf (idle (.write 0x1010 1 0x5A#32)).params.kMax)
      ∧ (idle (.write 0x1010 1 0x5A#32)).hostMoves
          (.write ((idle (.write 0x1010 1 0x5A#32)).params.base + 0x1000 + 16) 1 0x5A#32) :=
  ⟨rfl, by decide, rfl⟩

/-- Each of the three operand targets, and the first IN_BUF offset that is none. -/
theorem witness_HostHazardExactlyOnOperandWritesWhileBusy :
    ∀ x ∈ [(0x0008, 4), (0x0010, 4), (0x1000, 1), (0x1010, 1), (0x1011, 1)],
      x.1 < 0x4000 ∧ ((0x1000 ≤ x.1 ∧ x.1 < 0x3000 ∧ x.2 = 1)
        ∨ (¬(0x1000 ≤ x.1 ∧ x.1 < 0x3000) ∧ x.2 = 4 ∧ x.1 % 4 = 0))
      ∧ (busy (.write x.1 x.2 7#32)).hostMoves
          (.write ((busy (.write x.1 x.2 7#32)).params.base + x.1) x.2 7#32) := by
  simp [State.hostMoves, busy, inFlight, State.reset, State.resetWith, testInstance]

/-- The smallest and the largest instance. -/
theorem witness_RegistersAfterReset_and_ResetStateMeetsTheInvariant :
    Params.wf { kMax := 1, base := 0 } = true ∧ Params.wf { kMax := 4094, base := 0x4000 } = true := by decide

theorem witness_ResetInputRestoresTheResetState : State.resetMoves { inFlight 2#32 1#32 [0x41] with pending := [.reset] } := rfl

/-- Both ends of the range of m for r = 3 and r = 4 (41_required_parity_bits.md R77). -/
theorem witness_RequiredParityBitsRanges :
    requiredParityBits 1 = 2 ∧ requiredParityBits 2 = 3 ∧ requiredParityBits 4 = 3 ∧ requiredParityBits 5 = 4
      ∧ requiredParityBits 11 = 4 ∧ requiredParityBits 12 = 5 := by decide

theorem witness_RequiredParityBitsIsTheLeast : 1 ≤ 4 ∧ 1 ≤ 2 ∧ 2 < requiredParityBits 4 := by decide

theorem witness_EncWritesTheCodeword :
    (inFlight 2#32 16#32 []).operand ≤ (inFlight 2#32 16#32 []).params.kMax
      ∧ (dataPos (8 * (inFlight 2#32 16#32 []).operand + requiredParityBits (8 * (inFlight 2#32 16#32 []).operand)))[127]?
        = some 136 := by decide +kernel

theorem witness_EncOverCapacityIsRejected :
    (inFlight 2#32 17#32 []).params.kMax < (inFlight 2#32 17#32 []).operand := by decide

theorem witness_EncOfTheEmptyMessage : (inFlight 2#32 0#32 []).operand = 0 := by decide

theorem witness_EncodingIsSystematic :
    ∀ j, j < 8 * 1 → (inFlight 2#32 1#32 [0x41]).inBit j = (inFlight 2#32 1#32 [0x41, 0xFF]).inBit j := by decide

theorem witness_PresentParityBitsCountsThePowers :
    presentParityBits 1 = 1 ∧ presentParityBits 7 = 3 ∧ presentParityBits 8 = 4 := by decide

theorem witness_StructuralCheckAcceptsExactlyTheLengths :
    requiredParityBits (3 - presentParityBits 3) = presentParityBits 3
      ∧ requiredParityBits (1 - presentParityBits 1) ≠ presentParityBits 1
      ∧ requiredParityBits (4 - presentParityBits 4) ≠ presentParityBits 4 := by decide

/-- "01010": syndrome 6 above n = 5 (95_test_vectors.md 2.4), and n = 3 = 2^2 - 1, where none is above. -/
theorem witness_SyndromeIsTheXorOfPositions :
    List.length [false, true, false, true, false] = 5
      ∧ syndrome [false, true, false, true, false] 5 (presentParityBits 5) = 6
      ∧ 5 ≠ 2 ^ presentParityBits 5 - 1 ∧ 3 = 2 ^ presentParityBits 3 - 1 := by decide

theorem witness_DecOverCapacityIsRejected :
    nMaxOf (inFlight 3#32 137#32 []).params.kMax < (inFlight 3#32 137#32 []).operand := by decide

theorem witness_DecOfNothingIsEmptyInput : (inFlight 3#32 0#32 []).operand = 0 := by decide

theorem witness_DecOfAnImpossibleLength :
    (inFlight 3#32 4#32 []).operand ≤ nMaxOf (inFlight 3#32 4#32 []).params.kMax
      ∧ (inFlight 3#32 4#32 []).operand ≠ 0
      ∧ requiredParityBits ((inFlight 3#32 4#32 []).operand - presentParityBits (inFlight 3#32 4#32 []).operand)
        ≠ presentParityBits (inFlight 3#32 4#32 []).operand := ⟨by decide, by decide, by decide⟩

/-- The other impossible lengths of the test instance: 1 and the powers of two (43_decode.md R95). -/
theorem witness_impossible_lengths :
    requiredParityBits (1 - presentParityBits 1) ≠ presentParityBits 1
      ∧ requiredParityBits (8 - presentParityBits 8) ≠ presentParityBits 8
      ∧ 128 ≤ nMaxOf 16 ∧ requiredParityBits (128 - presentParityBits 128) ≠ presentParityBits 128 := by decide

/-- A length that passes the structural check of the test instance. -/
def ValidLength (s : State) : Prop :=
  s.operand ≤ nMaxOf s.params.kMax ∧ s.operand ≠ 0
    ∧ requiredParityBits (s.operand - presentParityBits s.operand) = presentParityBits s.operand

theorem witness_DecOfASyndromeAboveTheLength :
    ValidLength (inFlight 3#32 2#32 [0xC0])
      ∧ (inFlight 3#32 2#32 [0xC0]).operand < (inFlight 3#32 2#32 [0xC0]).operandSyndrome := by
  unfold ValidLength; decide

/-- "000" and "001": the located syndrome is 0, and 3 = n. -/
theorem witness_DecOfAnUnalignedMessage :
    ∀ b ∈ [0x00, 0x20], ValidLength (inFlight 3#32 3#32 [b])
      ∧ (inFlight 3#32 3#32 [b]).operandSyndrome ≤ (inFlight 3#32 3#32 [b]).operand
      ∧ ((inFlight 3#32 3#32 [b]).operand - presentParityBits (inFlight 3#32 3#32 [b]).operand) % 8 ≠ 0 := by
  unfold ValidLength; decide

/-- "A" clean, and with the last position flipped, so that the syndrome is n = 12. -/
theorem witness_DecWritesTheCorrectedMessage :
    ∀ b ∈ [0x10, 0x00], ValidLength (inFlight 3#32 12#32 [0x89, b])
      ∧ (inFlight 3#32 12#32 [0x89, b]).operandSyndrome ≤ (inFlight 3#32 12#32 [0x89, b]).operand
      ∧ ((inFlight 3#32 12#32 [0x89, b]).operand
          - presentParityBits (inFlight 3#32 12#32 [0x89, b]).operand) % 8 = 0 := by
  unfold ValidLength; decide

/-! The round trip: `encA` is ENC "A" before its completion, `decA` a DEC of what ENC wrote with some bits flipped. -/

/-- ENC "A" in flight. -/
def encA : State := inFlight 2#32 1#32 [0x41]

/-- DEC of 12 bits in flight. -/
def decA (b0 b1 : Nat) : State := inFlight 3#32 12#32 [b0, b1]

theorem encA_completes : exec .enc encA = .next (after .enc encA) := rfl

theorem witness_DecodeOfEncodeGivesTheMessageBack :
    encA.params.wf = true ∧ encA.operand ≤ encA.params.kMax ∧ exec .enc encA = .next (after .enc encA)
      ∧ (decA 0x89 0x10).params = encA.params ∧ (decA 0x89 0x10).inFlight.len = (after .enc encA).results.outLen
      ∧ ∀ j, j < (after .enc encA).results.outLen.toNat → (decA 0x89 0x10).inBit j = (after .enc encA).outBit j :=
  ⟨by decide, by decide, encA_completes, rfl, by decide, by decide⟩

/-- The first and the last position of the codeword. -/
theorem witness_DecodeCorrectsEverySingleFlip :
    ∀ x ∈ [(0x09, 0x10, 1), (0x89, 0x00, 12)], 1 ≤ x.2.2 ∧ x.2.2 ≤ (after .enc encA).results.outLen.toNat
      ∧ (decA x.1 x.2.1).params = encA.params ∧ (decA x.1 x.2.1).inFlight.len = (after .enc encA).results.outLen
      ∧ ∀ j, j < (after .enc encA).results.outLen.toNat →
          (decA x.1 x.2.1).inBit j = ((after .enc encA).outBit j ^^ decide (j + 1 = x.2.2)) := by decide

/-- 4 and 8, whose exclusive-or is n = 12; 5 and 10, whose exclusive-or 15 is above n (95_test_vectors.md 2.5). -/
theorem witness_DecodeDoesNotDetectDoubleFlips :
    (∀ x ∈ [(0x98, 0x10, 4, 8), (0x81, 0x50, 5, 10)],
      1 ≤ x.2.2.1 ∧ x.2.2.1 < x.2.2.2 ∧ x.2.2.2 ≤ (after .enc encA).results.outLen.toNat
      ∧ (decA x.1 x.2.1).inFlight.len = (after .enc encA).results.outLen
      ∧ ∀ j, j < (after .enc encA).results.outLen.toNat →
          (decA x.1 x.2.1).inBit j =
            ((after .enc encA).outBit j ^^ decide (j + 1 = x.2.2.1) ^^ decide (j + 1 = x.2.2.2)))
      ∧ 4 ^^^ 8 ≤ (after .enc encA).results.outLen.toNat ∧ (after .enc encA).results.outLen.toNat < 5 ^^^ 10 := by decide

/-! The statements over all commands. -/

/-- ENC and DEC, each with OK, with CapacityExceeded, and DEC with neither. -/
theorem witness_OutBufAtCompletion :
    (after .enc encA).status.code = .ok ∧ (after .enc (inFlight 2#32 17#32 [])).status.code = .capacityExceeded
      ∧ (after .dec (decA 0x89 0x10)).status.code = .ok
      ∧ (after .dec (inFlight 3#32 137#32 [])).status.code = .capacityExceeded
      ∧ (after .dec (decA 0x81 0x50)).status.code = .unrepairable
      ∧ bytesFor (8 * encA.operand + requiredParityBits (8 * encA.operand)) ≤ 2 := by decide

/-- Two states that differ only in an IN_BUF byte the commands do not read. -/
theorem witness_CompletionDependsOnlyOnTheOperands :
    (∀ j, j < 8 * encA.operand → (inFlight 2#32 1#32 [0x41, 0xFF]).inBit j = encA.inBit j)
      ∧ (inFlight 2#32 1#32 [0x41, 0xFF]).params = encA.params
      ∧ (inFlight 2#32 1#32 [0x41, 0xFF]).inFlight.len = encA.inFlight.len
      ∧ (∀ j, j < (decA 0x89 0x10).operand → (decA 0x89 0x1F).inBit j = (decA 0x89 0x10).inBit j) := by decide

theorem witness_NoStatusCodeStopsTheBlock :
    exec .enc { inFlight 2#32 17#32 [] with pending := [.host (.write 0x0008 4 1#32)] } =
        .next (after .enc { inFlight 2#32 17#32 [] with pending := [.host (.write 0x0008 4 1#32)] })
      ∧ (after .enc { inFlight 2#32 17#32 [] with pending := [.host (.write 0x0008 4 1#32)] }).hostMoves
          (.write 0x0008 4 1#32) := ⟨rfl, rfl⟩

theorem witness_ResultsChangeOnlyAtCompletionOrReset :
    step encA = .next (after .enc { encA with pending := [], reply := .nothing })
      ∧ (after .enc { encA with pending := [], reply := .nothing }).results ≠ encA.results := ⟨rfl, by decide⟩

/-- ENC "A" after its completion, with a poll to come. -/
def doneA : State := { after .enc encA with pending := [.host (.read 0x000C 4)] }

theorem doneA_inv : doneA.Inv := by
  constructor <;> decide

theorem witness_ResultsStayUntilTheNextCommandOrReset :
    doneA.Inv ∧ doneA.status.done = true ∧ CommandEnds doneA { doneA with pending := [], reply := .word 0x00000002#32 } :=
  ⟨doneA_inv, rfl, rfl, rfl, _, rfl, by decide⟩

theorem witness_InBufChangesOnlyByHostWriteOrReset :
    step { encA with status := { busy := false, done := true, code := .ok }, pending := [.host (.write 0x1000 1 0x5A#32)] } =
        .next { encA with status := { busy := false, done := true, code := .ok }, pending := [], inBuf := [(0, 0x5A#8)] }
      ∧ State.inByte { encA with inBuf := [(0, 0x5A#8)] } 0 ≠ encA.inByte 0 :=
  ⟨next_of_nextOf (by decide +kernel), by decide⟩

theorem witness_IdAndParamNeverChange : step State.reset = .next State.reset := rfl

theorem witness_EveryStepKeepsTheInvariant :
    encA.Inv ∧ step encA = .next (after .enc { encA with pending := [], reply := .nothing }) := ⟨inFlight_inv _, rfl⟩

end Sys2Proof.Tests
end

