-- ==== Sys2Proof/Proofs/HostAccess.lean ====
section
/-! What one legal host access does, as a rule per direction: a step that reads or writes an offset of the window is the
access to what the address map names there. -/

namespace Sys2Proof.Machine

/-- The two clauses of 20_memory.md R42. -/
theorem legalAccess_iff (off width : Nat) :
    legalAccess off width = true ↔
      (0x1000 ≤ off ∧ off < 0x3000 ∧ width = 1) ∨ (¬(0x1000 ≤ off ∧ off < 0x3000) ∧ width = 4 ∧ off % 4 = 0) := by
  unfold legalAccess
  split_ifs with hbuffer
  · simp [hbuffer]
  · simp only [Bool.and_eq_true, beq_iff_eq]
    omega

theorem inWindow_base_add (p : Config.Params) (off : Nat) : inWindow p (p.base + off) = true ↔ off < 0x4000 := by
  simp [inWindow]

theorem Reg.offset_lt (r : Reg) : r.offset < 0x0030 := by
  cases r <;> decide

/-- The address map has no register from 0x0030 on, and outside the two buffer windows nothing else is named
(10_state.md R29). -/
theorem target_eq_reserved {off : Nat} (hregs : 0x0030 ≤ off) (hbufs : ¬(0x1000 ≤ off ∧ off < 0x3000)) :
    target off = .reserved := by
  have hnone : (Reg.all.find? fun r => r.offset == off) = none := by
    refine List.find?_eq_none.mpr fun r _ => ?_
    have := r.offset_lt
    simp only [beq_iff_eq]
    omega
  unfold target
  rw [if_neg (by omega), if_neg (by omega), hnone]

theorem step_of_hostMoves {s : State} {op : HostOp} (h : s.hostMoves op) : step s = s.takeEvent.hostAccess op := by
  obtain ⟨rest, hpending⟩ := List.head?_eq_some_iff.mp h
  simp only [step, hpending]

/-- A legal read answers what the address map names at its offset (20_memory.md R40). -/
theorem step_of_legal_read {s : State} {off width : Nat} (hoff : off < 0x4000) (hlegal : legalAccess off width = true)
    (h : s.hostMoves (.read (s.params.base + off) width)) :
    step s = .next (s.takeEvent.readTarget (target off)) := by
  rw [step_of_hostMoves h]
  simp [State.hostAccess, State.busRead, (inWindow_base_add s.params off).mpr hoff, hlegal]

/-- A legal write that is no hazard goes to what the address map names at its offset (20_memory.md R41). -/
theorem step_of_legal_write {s : State} {off width : Nat} {v : Word} (hoff : off < 0x4000)
    (hlegal : legalAccess off width = true)
    (hsafe : ¬(s.status.busy = true ∧ isOperandTarget s.params (target off) = true))
    (h : s.hostMoves (.write (s.params.base + off) width v)) :
    step s = .next (s.takeEvent.writeTarget v (target off)) := by
  rw [step_of_hostMoves h]
  simp [State.hostAccess, State.busWrite, (inWindow_base_add s.params off).mpr hoff, hlegal, hsafe, -not_and]

end Sys2Proof.Machine
end

