-- ==== Sys2Proof/Proofs/ReservedOffsets.lean ====
section
namespace Sys2Proof.Machine

/-- Settles O14: the address map names nothing at these offsets, and neither direction of an access to nothing touches the
block; being no operand, they are no hazard while BUSY = 1 either. -/
theorem reservedOffsetsReadZeroAndIgnoreWrites : Obligations.ReservedOffsetsReadZeroAndIgnoreWrites := by
  intro s off v hrange haligned
  have hoff : off < 0x4000 := by omega
  have hbufs : ¬(0x1000 ≤ off ∧ off < 0x3000) := by omega
  have hlegal : legalAccess off 4 = true := (legalAccess_iff off 4).mpr (.inr ⟨hbufs, rfl, haligned⟩)
  have htarget : target off = .reserved := target_eq_reserved (by omega) hbufs
  constructor
  · intro hread
    rw [step_of_legal_read hoff hlegal hread, htarget]
    rfl
  · intro hwrite
    have hsafe : ¬(s.status.busy = true ∧ isOperandTarget s.params (target off) = true) := by
      simp [htarget, isOperandTarget]
    rw [step_of_legal_write hoff hlegal hsafe hwrite, htarget]
    rfl

end Sys2Proof.Machine
end

