-- ==== Sys2Proof/Proofs/CommandWords.lean ====
section
/-! What the decoder answers, as a rule per branch over the fields RSV and OP, and which words it takes for commands
(30_encoding.md R53, R54, R57). -/

namespace Sys2Proof

/-- RSV and OP are the whole word (30_encoding.md R53). -/
@[simp] theorem rsvField_append_opField (w : Word) : rsvField w ++ opField w = w := by
  unfold rsvField opField
  rw [BitVec.extractLsb'_append_extractLsb'_eq_extractLsb' (by rfl)]
  exact BitVec.extractLsb'_eq_self

theorem decodeCmd_of_rsvField_ne_zero {w : Word} (hrsv : rsvField w ≠ 0#28) :
    decodeCmd w = .illegal .reservedNonzero := by
  simp [decodeCmd, hrsv]

theorem decodeCmd_of_opField_eq_opcode {w : Word} {i : Instr} (hrsv : rsvField w = 0#28) (hop : opField w = opcode i) :
    decodeCmd w = .command i := by
  cases i <;> simp [decodeCmd, hrsv, hop, opcode]

theorem decodeCmd_of_opField_unassigned {w : Word} (hrsv : rsvField w = 0#28) (hop : ∀ i, opField w ≠ opcode i) :
    decodeCmd w = .illegal .opcodeUnassigned := by
  have hrpb : opField w ≠ 0x1#4 := hop .rpb
  have henc : opField w ≠ 0x2#4 := hop .enc
  have hdec : opField w ≠ 0x3#4 := hop .dec
  simp [decodeCmd, hrsv, hrpb, henc, hdec]

/-- The words the decoder takes for a command, by their fields (30_encoding.md R57). -/
theorem decodeCmd_eq_command_iff_fields {w : Word} {i : Instr} :
    decodeCmd w = .command i ↔ rsvField w = 0#28 ∧ opField w = opcode i := by
  refine ⟨fun h => ?_, fun ⟨hrsv, hop⟩ => decodeCmd_of_opField_eq_opcode hrsv hop⟩
  have hrsv : rsvField w = 0#28 := by
    by_contra hne
    simp [decodeCmd_of_rsvField_ne_zero hne] at h
  by_cases hassigned : ∃ j, opField w = opcode j
  · obtain ⟨j, hop⟩ := hassigned
    have hcommand : j = i := by simpa [decodeCmd_of_opField_eq_opcode hrsv hop] using h
    exact ⟨hrsv, hcommand ▸ hop⟩
  · simp [decodeCmd_of_opField_unassigned hrsv (not_exists.mp hassigned)] at h

/-- The laws of the command words, for every command. -/
theorem commandWord_statement : ∀ i : Instr, Laws.CommandWord.Statement i
  | .rpb => Laws.CommandWord.rpb
  | .enc => Laws.CommandWord.enc
  | .dec => Laws.CommandWord.dec

/-- A command has one word, its encoding (30_encoding.md R54). -/
theorem decodeCmd_eq_command_iff {w : Word} {i : Instr} : decodeCmd w = .command i ↔ w = encodeCmd i := by
  rw [decodeCmd_eq_command_iff_fields]
  constructor
  · intro ⟨hrsv, hop⟩
    rw [← rsvField_append_opField w, hrsv, hop, encodeCmd]
  · rintro rfl
    obtain ⟨-, -, hrsv, hop⟩ := commandWord_statement i
    exact ⟨hrsv, hop⟩

/-- Settles O1: the word of R54 is in each case the encoding of the command. -/
theorem eachCommandIsSelectedByItsWholeWord : Obligations.EachCommandIsSelectedByItsWholeWord := fun _ =>
  ⟨decodeCmd_eq_command_iff (i := .rpb), decodeCmd_eq_command_iff (i := .enc), decodeCmd_eq_command_iff (i := .dec)⟩

/-- Settles O3: one rule of the decoder per branch of R57. -/
theorem decoderFollowsTheFields : Obligations.DecoderFollowsTheFields := by
  intro w
  refine ⟨decodeCmd_of_rsvField_ne_zero, fun hrsv => ⟨?rpb, ?enc, ?dec, ?unassigned⟩⟩
  case rpb => exact decodeCmd_of_opField_eq_opcode (i := .rpb) hrsv
  case enc => exact decodeCmd_of_opField_eq_opcode (i := .enc) hrsv
  case dec => exact decodeCmd_of_opField_eq_opcode (i := .dec) hrsv
  case unassigned =>
    intro hrpb henc hdec
    refine decodeCmd_of_opField_unassigned hrsv fun i => ?_
    cases i
    case rpb => exact hrpb
    case enc => exact henc
    case dec => exact hdec

end Sys2Proof
end

