-- ==== Sys2Proof/Proofs/CommandAcceptance.lean ====
section
/-! A 32-bit write to a register while BUSY = 0, as one rule for all registers, and from it the acceptance of a command
word (40_command.md R63). -/

namespace Sys2Proof.Machine

/-- The address map finds every register at its own offset (10_state.md R15). -/
@[simp] theorem target_regOffset (r : Reg) : target r.offset = .reg r := by
  cases r <;> decide

/-- Every register may be accessed with 32 bits (20_memory.md R42). -/
@[simp] theorem legalAccess_regOffset (r : Reg) : legalAccess r.offset 4 = true := by
  cases r <;> decide

/-- While BUSY = 0 no register write is a hazard, so it goes to the register (20_memory.md R41). -/
theorem step_of_idle_reg_write {s : State} {r : Reg} {v : Word} (hidle : s.status.busy = false)
    (h : s.hostMoves (.write (s.params.base + r.offset) 4 v)) :
    step s = .next (s.takeEvent.writeTarget v (.reg r)) := by
  have hoff : r.offset < 0x4000 := r.offset_lt.trans (by decide)
  have hsafe : ¬(s.status.busy = true ∧ isOperandTarget s.params (target r.offset) = true) := by simp [hidle]
  rw [step_of_legal_write hoff (legalAccess_regOffset r) hsafe h, target_regOffset]

/-- Settles O20: 0x0008 is the offset of CMD, and the write that goes there is the acceptance of the word. -/
theorem cmdWriteIsAccepted : Obligations.CmdWriteIsAccepted := by
  intro s v hidle hwrite
  have haccept : step s = .next (s.takeEvent.accept v) := step_of_idle_reg_write (r := .cmd) hidle hwrite
  rw [haccept]
  rfl

end Sys2Proof.Machine
end

