-- ==== Sys2Proof/Proofs/ParityCount.lean ====
section
/-! The encode-side parity count: it meets the condition of 41_required_parity_bits.md R76, nothing from 1 below it does,
and RPB reports it for every operand (R78). -/

namespace Sys2Proof.Machine

@[simp] theorem requiredParityBits_zero : requiredParityBits 0 = 2 := rfl

theorem requiredParityBits_eq_parityBitsFrom {m : Nat} (hm : 1 ≤ m) :
    requiredParityBits m = parityBitsFrom m (m + 1) 1 := if_neg (by omega)

theorem requiredParityBits_fails_below {m q : Nat} (hm : 1 ≤ m) (hq : 1 ≤ q) (hlt : q < requiredParityBits m) :
    2 ^ q < m + q + 1 := by
  rw [requiredParityBits_eq_parityBitsFrom hm] at hlt
  obtain ⟨-, -, hfails, -⟩ := parityBitsFrom_spec m (m + 1) 1
  exact hfails q hq hlt

/-- The m + 1 steps the model gives the loop are enough, since the condition holds at r = m + 1 (log 21). -/
theorem requiredParityBits_meets (m : Nat) : m + requiredParityBits m + 1 ≤ 2 ^ requiredParityBits m := by
  rcases Nat.eq_zero_or_pos m with rfl | hm
  · decide
  · have hstops : requiredParityBits m < 1 + (m + 1) := by
      by_contra hlate
      have hfails := requiredParityBits_fails_below (q := m + 1) hm (by omega) (by omega)
      have hpow : m < 2 ^ m := Nat.lt_two_pow_self
      rw [Nat.pow_succ] at hfails
      omega
    obtain ⟨-, -, -, hmeets⟩ := parityBitsFrom_spec m (m + 1) 1
    rw [requiredParityBits_eq_parityBitsFrom hm] at hstops ⊢
    exact hmeets hstops

theorem two_le_requiredParityBits (m : Nat) : 2 ≤ requiredParityBits m := by
  rcases Nat.eq_zero_or_pos m with rfl | hm
  · exact le_refl 2
  · have hmeets := requiredParityBits_meets m
    by_contra hlt
    interval_cases requiredParityBits m <;> omega

theorem requiredParityBits_le_of_meets {m q : Nat} (hq : 2 ≤ q) (hmeets : m + q + 1 ≤ 2 ^ q) :
    requiredParityBits m ≤ q := by
  rcases Nat.eq_zero_or_pos m with rfl | hm
  · exact hq
  · by_contra hlt
    have hfails := requiredParityBits_fails_below hm (by omega) (Nat.lt_of_not_le hlt)
    omega

/-- Settles O27: the loop stops at the first r that meets the condition. -/
theorem requiredParityBitsIsTheLeast : Obligations.RequiredParityBitsIsTheLeast :=
  ⟨requiredParityBits_zero, fun m hm =>
    ⟨one_le_two.trans (two_le_requiredParityBits m), requiredParityBits_meets m,
      fun _ => requiredParityBits_fails_below hm⟩⟩

/-- A 32-bit operand needs at most 33 parity bits, since 2^33 is at least 2^32 + 33 (41_required_parity_bits.md R78). -/
theorem requiredParityBits_operand_le (s : State) : requiredParityBits s.operand ≤ 33 := by
  have hoperand : s.operand < 2 ^ 32 := s.inFlight.len.isLt
  exact requiredParityBits_le_of_meets (by decide) (by omega)

/-- What RPB's completion leaves in the registers and in OUT_BUF (41_required_parity_bits.md R78). -/
theorem rpb_completes (s : State) :
    Completes (exec .rpb s) 0x02 0 (requiredParityBits s.operand) s.operand
      ((s.operand + requiredParityBits s.operand) % 2 ^ 32) 0 0 0 fun t =>
        t.outByte = s.outByte ∧ t.inFlight.valid = false := by
  have hresN : (s.complete (rpbCompletion s.operand)).regValue .resN
      = BitVec.ofNat 32 ((s.operand + requiredParityBits s.operand) % 2 ^ 32) :=
    BitVec.eq_of_toNat_eq (by simp [State.regValue, rpbCompletion])
  have hstatus : (⟨false, true, .ok⟩ : Status).word = BitVec.ofNat 32 0x02 := by decide
  have hflags : Flags.none.word = BitVec.ofNat 32 0 := by decide
  exact ⟨_, exec_rpb s, hstatus, rfl, rfl, rfl, hresN, rfl, hflags, rfl, s.complete_outByte_of_unchanged rfl, rfl⟩

/-- Settles O31: RPB is one completion whatever the operand; the corner counts are the loop, run. -/
theorem rpbCompletesForEveryOperand : Obligations.RpbCompletesForEveryOperand :=
  ⟨decodeCmd_eq_command_iff.mpr rfl,
    fun s => ⟨two_le_requiredParityBits s.operand, requiredParityBits_operand_le s, rpb_completes s⟩,
    by decide⟩

end Sys2Proof.Machine
end

