-- ==== Sys2Proof/Proofs/EncCompletion.lean ====
section
/-! What ENC leaves in the registers when the message fits, and its smallest message, the empty one (42_encode.md R81,
R86). -/

namespace Sys2Proof.Machine

theorem encCompletion_out_of_le {kMax k : Nat} (hfits : k ≤ kMax) (input : Nat → Bool) :
    (encCompletion kMax k input).out = .bytes (packStream (encCodeword k input)) := by
  obtain ⟨hover, -⟩ | ⟨-, -, hout, -⟩ := encCompletion_cases kMax k input
  · omega
  · exact hout

/-- The status and result registers after ENC of a message within capacity (42_encode.md R81); `rest` is what else is
wanted of the completed state. -/
theorem enc_completes_of_le {s : State} (hfits : s.operand ≤ s.params.kMax) {rest : State → Prop}
    (hrest : rest (s.complete (encCompletion s.params.kMax s.operand s.inBit))) :
    Completes (exec .enc s) 0x02 (8 * s.operand + requiredParityBits (8 * s.operand))
      (requiredParityBits (8 * s.operand)) (8 * s.operand) (8 * s.operand + requiredParityBits (8 * s.operand)) 0 0 0
      rest := by
  obtain ⟨hover, -⟩ | ⟨-, hcode, -, hresults⟩ := encCompletion_cases s.params.kMax s.operand s.inBit
  · omega
  · have hstatus : (⟨false, true, .ok⟩ : Status).word = BitVec.ofNat 32 0x02 := by decide
    have hflags : Flags.none.word = BitVec.ofNat 32 0 := by decide
    refine ⟨_, exec_enc s, ?_, ?_, ?_, ?_, ?_, ?_, ?_, ?_, hrest⟩ <;>
      simp [State.regValue, hcode, hresults, hstatus, hflags, Results.zero]

/-- The empty message has no data position: n = 2 and both positions hold the parity of nothing (42_encode.md R86). -/
theorem encCodeword_zero (input : Nat → Bool) : encCodeword 0 input = [false, false] := rfl

/-- Settles O34: the empty message fits every instance, and its two 0 bits are packed into one byte. -/
theorem encOfTheEmptyMessage : Obligations.EncOfTheEmptyMessage := by
  intro s hempty
  have hfits : s.operand ≤ s.params.kMax := by omega
  have hpacked : packStream [false, false] = [0x00#8] := by decide
  have hbyte : (s.complete (encCompletion s.params.kMax s.operand s.inBit)).outByte 0 = 0x00#8 := by
    rw [State.complete_outByte_of_bytes s (encCompletion_out_of_le hfits s.inBit), hempty, encCodeword_zero, hpacked]
    rfl
  simpa [hempty] using enc_completes_of_le (rest := fun t => t.outByte 0 = 0x00#8) hfits hbyte

end Sys2Proof.Machine
end

