-- ==== Sys2Proof/Proofs/PresentParityBits.lean ====
section
/-! The decode-side parity count: the parity positions 2^i of a codeword of n bits are those with i below it
(43_decode.md R93). -/

namespace Sys2Proof.Machine

theorem presentParityBits_eq_log2_succ {n : Nat} (hn : 1 ≤ n) : presentParityBits n = Nat.log2 n + 1 :=
  if_neg (by omega)

theorem two_pow_le_iff_lt_presentParityBits {n i : Nat} (hn : 1 ≤ n) : 2 ^ i ≤ n ↔ i < presentParityBits n := by
  rw [presentParityBits_eq_log2_succ hn, Nat.lt_succ_iff, Nat.le_log2 (by omega)]

theorem lt_two_pow_presentParityBits {n : Nat} (hn : 1 ≤ n) : n < 2 ^ presentParityBits n :=
  Nat.lt_of_not_le fun hle => Nat.lt_irrefl _ ((two_pow_le_iff_lt_presentParityBits hn).mp hle)

theorem presentParityBits_le {n : Nat} (hn : 1 ≤ n) : presentParityBits n ≤ n := by
  have hpow : ¬2 ^ n ≤ n := Nat.not_le_of_lt Nat.lt_two_pow_self
  rwa [two_pow_le_iff_lt_presentParityBits hn, Nat.not_lt] at hpow

theorem length_filter_lt_range {k n : Nat} (hk : k ≤ n) :
    ((List.range n).filter fun i => decide (i < k)).length = k := by
  obtain ⟨d, rfl⟩ := Nat.exists_eq_add_of_le hk
  have hbelow : (List.range k).filter (fun i => decide (i < k)) = List.range k :=
    List.filter_eq_self.mpr fun i hi => by simpa using hi
  have habove : ((List.range d).map (k + ·)).filter (fun i => decide (i < k)) = [] :=
    List.filter_eq_nil_iff.mpr fun i hi => by
      obtain ⟨j, -, rfl⟩ := List.mem_map.mp hi
      simp
  rw [List.range_add, List.filter_append, hbelow, habove, List.append_nil, List.length_range]

/-- Settles O37: 2^i is at most n exactly for the i below the count, so there are that many, the last is 2^(r-1), and 2^r is
above n. -/
theorem presentParityBitsCountsThePowers : Obligations.PresentParityBitsCountsThePowers := by
  intro n hn
  have hpos : 0 < presentParityBits n := (two_pow_le_iff_lt_presentParityBits hn).mp hn
  refine ⟨?count, presentParityBits_eq_log2_succ hn, ?lower, lt_two_pow_presentParityBits hn⟩
  case count =>
    simp only [two_pow_le_iff_lt_presentParityBits hn]
    exact (length_filter_lt_range ((presentParityBits_le hn).trans (Nat.le_succ n))).symm
  case lower => exact (two_pow_le_iff_lt_presentParityBits hn).mpr (by omega)

end Sys2Proof.Machine
end

