-- ==== Sys2Proof/Proofs/DecCompletion.lean ====
section
/-! What DEC leaves in the registers and in OUT_BUF: one rule for a rejection, one for `decDone`, and from them the outcomes
of 43_decode.md R91, R99 and R104. -/

namespace Sys2Proof.Machine

/-! ### Completions as the bus reads them -/

/-- reject(code) zeroes every result register and leaves OUT_BUF (40_command.md R66). -/
theorem completes_of_reject {o : Host.Outcome State Fault Refusal} {s : State} {code : StatusCode} {status : Nat}
    (ho : o = .next (s.complete (.reject code)))
    (hstatus : (⟨false, true, code⟩ : Status).word = BitVec.ofNat 32 status) :
    Completes o status 0 0 0 0 0 0 0 fun t => t.outByte = s.outByte ∧ t.inFlight.valid = false := by
  have hflags : Flags.none.word = BitVec.ofNat 32 0 := by decide
  exact ⟨_, ho, hstatus, rfl, rfl, rfl, rfl, rfl, hflags, rfl, s.complete_outByte_of_unchanged rfl, rfl⟩

/-- The registers after done(code, r, m, syn, flags, outlen) (43_decode.md R90); `rest` is what else is wanted of the
completed state. -/
theorem dec_completes_of_decDone {s : State} {code : StatusCode} {n r m syn outLen status flags errPos : Nat} {f : Flags}
    {bs : List Byte} {rest : State → Prop}
    (hdone : decCompletion (instanceNMax s.params) s.operand s.inBit = decDone code n r m syn f outLen bs)
    (hstatus : (⟨false, true, code⟩ : Status).word = BitVec.ofNat 32 status) (hflags : f.word = BitVec.ofNat 32 flags)
    (herrPos : errPosOf f syn = BitVec.ofNat 32 errPos)
    (hrest : rest (s.complete (decDone code n r m syn f outLen bs))) :
    Completes (exec .dec s) status outLen r m n syn flags errPos rest := by
  rw [exec_dec, hdone]
  exact ⟨_, rfl, hstatus, rfl, rfl, rfl, rfl, rfl, hflags, herrPos, hrest⟩

/-! ### The branches of DEC -/

theorem decCompletion_of_over_capacity {nMax n : Nat} (hover : nMax < n) (input : Nat → Bool) :
    decCompletion nMax n input = .reject .capacityExceeded :=
  if_pos hover

/-- Past the capacity and the structural check, DEC goes on with the syndrome of its operand (43_decode.md R95 to R97). -/
theorem decCompletion_of_checks_passed {s : State} (hfits : s.operand ≤ nMaxOf s.params.kMax) (hne : s.operand ≠ 0)
    (hlength : requiredParityBits (s.operand - presentParityBits s.operand) = presentParityBits s.operand) :
    decCompletion (instanceNMax s.params) s.operand s.inBit
      = decLocated s.operand (presentParityBits s.operand) (s.operand - presentParityBits s.operand)
        (loadCodeword s.operand s.inBit) s.operandSyndrome := by
  obtain ⟨hover, -⟩ | ⟨-, hzero, -⟩ | ⟨-, -, hbad, -⟩ | ⟨-, -, -, hlocated⟩ :=
    decCompletion_cases (instanceNMax s.params) s.operand s.inBit
  · exact absurd hfits (Nat.not_le_of_lt hover)
  · exact absurd hzero hne
  · exact absurd hlength hbad
  · exact hlocated

theorem decLocated_of_syndrome_above {n syn : Nat} (habove : n < syn) (r m : Nat) (c : Codeword) :
    decLocated n r m c syn = decDone .unrepairable n r m syn Flags.unrepairable 0 [] :=
  if_pos habove

theorem decLocated_of_aligned {n m syn : Nat} (hsyn : syn ≤ n) (haligned : m % 8 = 0) (r : Nat) (c : Codeword) :
    decLocated n r m c syn
      = decDone .ok n r m syn (Flags.located syn).withMessage (m / 8) (packStream (extract (correct c syn) n)) := by
  obtain ⟨habove, -⟩ | ⟨-, hunaligned, -⟩ | ⟨-, -, hdone⟩ := decLocated_cases n r m c syn
  · omega
  · exact absurd haligned hunaligned
  · exact hdone

/-! ### What the locator reports (43_decode.md R100) -/

theorem located_withMessage_word (syn : Nat) :
    (Flags.located syn).withMessage.word = BitVec.ofNat 32 (if syn = 0 then 0x18 else 0x1F) := by
  unfold Flags.located
  split_ifs <;> decide

@[simp] theorem errPosOf_withMessage (f : Flags) (syn : Nat) : errPosOf f.withMessage syn = errPosOf f syn := rfl

/-- ERR_POS holds the located syndrome, also where it is 0 and POS_VALID is not set. -/
theorem errPosOf_located (syn : Nat) : errPosOf (Flags.located syn) syn = BitVec.ofNat 32 syn := by
  unfold Flags.located
  split_ifs with hzero
  · rw [hzero]
    rfl
  · rfl

/-! ### The corrected message -/

/-- The extracted bit i is the codeword bit at the i-th data position, flipped exactly at the syndrome
(43_decode.md R101, R102). -/
theorem extract_correct_getD {c : Codeword} {n syn i p : Nat} (hsyn : syn ≤ c.length) (hp : (dataPos n)[i]? = some p) :
    (extract (correct c syn) n).getD i false = (c.bit p ^^ decide (p = syn)) := by
  have hpos : 1 ≤ p := ((mem_dataPos n p).mp (List.mem_of_getElem? hp)).1
  simp [extract, hp, correct_bit c hsyn hpos]

/-- The OUT_BUF bytes after a DEC that found a message hold the corrected data bits in order, most significant bit first
(43_decode.md R104). -/
theorem complete_decDone_outByte_bit (s : State) {code : StatusCode} {n r m syn outLen i p : Nat} {f : Flags}
    {input : Nat → Bool} (hsyn : syn ≤ n) (hp : (dataPos n)[i]? = some p) :
    ((s.complete (decDone code n r m syn f outLen
        (packStream (extract (correct (loadCodeword n input) syn) n)))).outByte (i / 8)).getLsbD (7 - i % 8)
      = (input (p - 1) ^^ decide (p = syn)) := by
  obtain ⟨hi, -⟩ := List.getElem?_eq_some_iff.mp hp
  obtain ⟨hpos, hle, -⟩ := (mem_dataPos n p).mp (List.mem_of_getElem? hp)
  have hbyte : i / 8 < bytesFor (extract (correct (loadCodeword n input) syn) n).length :=
    div_eight_lt_bytesFor (by simpa using hi)
  rw [← loadCodeword_bit input hpos hle, ← extract_correct_getD (by simpa using hsyn) hp]
  exact s.complete_outBit rfl hbyte

/-! ### The outcomes -/

/-- Settles O42: the capacity check is DEC's first, and it rejects. -/
theorem decOverCapacityIsRejected : Obligations.DecOverCapacityIsRejected := by
  intro s hover
  have hreject : exec .dec s = .next (s.complete (.reject .capacityExceeded)) := by
    rw [exec_dec, decCompletion_of_over_capacity (nMax := instanceNMax s.params) hover]
  exact completes_of_reject hreject (by decide)

/-- Settles O45: nothing is located above n, so FLAGS has ERR_DET alone and ERR_POS is 0. -/
theorem decOfASyndromeAboveTheLength : Obligations.DecOfASyndromeAboveTheLength := by
  intro s hfits hne hlength habove
  have hdone := (decCompletion_of_checks_passed hfits hne hlength).trans (decLocated_of_syndrome_above habove _ _ _)
  exact dec_completes_of_decDone hdone (by decide) (by decide) rfl rfl

/-- Settles O47: the locator reports the syndrome, and the corrected data bits are packed into OUT_BUF. -/
theorem decWritesTheCorrectedMessage : Obligations.DecWritesTheCorrectedMessage := by
  intro s hfits hne hlength hsyn haligned
  have hdone := (decCompletion_of_checks_passed hfits hne hlength).trans (decLocated_of_aligned hsyn haligned _ _)
  exact dec_completes_of_decDone hdone (by decide) (located_withMessage_word _)
    (by rw [errPosOf_withMessage, errPosOf_located]) fun _ _ hp => complete_decDone_outByte_bit s hsyn hp

end Sys2Proof.Machine
end

