-- ==== Sys2Proof/Proofs/Exceptions.lean ====
section
/-! What stops the host and what does not (60_exceptions.md): an illegal access is a fault in either direction, and no status
code keeps the block from its next command. -/

namespace Sys2Proof.Machine

/-! ### AccessError -/

theorem step_of_illegal_read {s : State} {off width : Nat} (hoff : off < 0x4000)
    (hillegal : legalAccess off width = false) (h : s.hostMoves (.read (s.params.base + off) width)) :
    step s = .fault (.accessError (s.params.base + off)) := by
  rw [step_of_hostMoves h]
  simp [State.hostAccess, State.busRead, (inWindow_base_add s.params off).mpr hoff, hillegal]

/-- A write is checked for AccessError before HostHazard, so BUSY does not matter (60_exceptions.md R116). -/
theorem step_of_illegal_write {s : State} {off width : Nat} {v : Word} (hoff : off < 0x4000)
    (hillegal : legalAccess off width = false) (h : s.hostMoves (.write (s.params.base + off) width v)) :
    step s = .fault (.accessError (s.params.base + off)) := by
  rw [step_of_hostMoves h]
  simp [State.hostAccess, State.busWrite, (inWindow_base_add s.params off).mpr hoff, hillegal]

/-- Settles O11: the offset lies in the window, so the access reaches the check of 20_memory.md R42 and fails it. -/
theorem illegalAccessIsAccessError : Obligations.IllegalAccessIsAccessError := by
  intro s off width v hoff hclauses
  have hillegal : legalAccess off width = false :=
    Bool.eq_false_iff.mpr (mt (legalAccess_iff off width).mp hclauses)
  exact ⟨step_of_illegal_read hoff hillegal, step_of_illegal_write hoff hillegal⟩

/-! ### After a completion -/

/-- A command and an illegal word end alike, in one completion, and that leaves BUSY = 0 (40_command.md R65, R66). -/
theorem idle_of_completed {s t : State} (h : (∃ i, exec i s = .next t) ∨ t = s.completeIllegal) :
    t.status.busy = false := by
  obtain ⟨i, hexec⟩ | rfl := h
  · obtain ⟨c, hcomplete⟩ := exec_completes i s
    cases hexec.symm.trans hcomplete
    rfl
  · rfl

/-- STATUS while a command is in flight (10_state.md R19). -/
theorem regValue_status_of_accepted {s : State} (h : s.status = { busy := true, done := false, code := .ok }) :
    s.regValue .status = 0x00000001#32 := by
  rw [State.regValue, h]
  decide

/-- Settles O54: the block is idle whatever the status code, and an idle block accepts. -/
theorem noStatusCodeStopsTheBlock : Obligations.NoStatusCodeStopsTheBlock := by
  intro s t v hcompleted hwrite
  have haccept := cmdWriteIsAccepted t v (idle_of_completed hcompleted) hwrite
  exact ⟨_, haccept, rfl, rfl, regValue_status_of_accepted rfl⟩

end Sys2Proof.Machine
end

