-- ==== Sys2Proof/Proofs/HostHazards.lean ====
section
/-! Which writes the host must not make while a command is in flight (70_reset_and_hazards.md R134): the operand targets of
the address map, and the fault that a legal write to one of them raises while BUSY = 1. -/

namespace Sys2Proof.Machine

/-! ### Where the operands lie -/

theorem target_of_inBuf_window {off : Nat} (h : 0x1000 ≤ off ∧ off < 0x2000) : target off = .inBuf (off - 0x1000) :=
  if_pos h

theorem target_of_outBuf_window {off : Nat} (h : 0x2000 ≤ off ∧ off < 0x3000) : target off = .outBuf (off - 0x2000) := by
  unfold target
  rw [if_neg (by omega), if_pos h]

/-- Outside the buffer windows an offset that no register has is reserved, also where it lies below 0x0030
(20_memory.md R44). -/
theorem target_of_no_register {off : Nat} (hbufs : ¬(0x1000 ≤ off ∧ off < 0x3000)) (hregs : ∀ r : Reg, r.offset ≠ off) :
    target off = .reserved := by
  have hnone : (Reg.all.find? fun r => r.offset == off) = none :=
    List.find?_eq_none.mpr fun r _ => by simpa using hregs r
  unfold target
  rw [if_neg (by omega), if_neg (by omega), hnone]

/-- The operands by their offsets: CMD, IN_LEN and IN_BUF[b < BUF_BYTES] (20_memory.md R41). -/
theorem isOperandTarget_target_iff (p : Config.Params) (off : Nat) :
    isOperandTarget p (target off) = true ↔
      off = 0x0008 ∨ off = 0x0010 ∨ (0x1000 ≤ off ∧ off < 0x2000 ∧ off < 0x1000 + instanceBufBytes p) := by
  by_cases hin : 0x1000 ≤ off ∧ off < 0x2000
  · simp only [target_of_inBuf_window hin, isOperandTarget, decide_eq_true_eq]
    omega
  by_cases hout : 0x2000 ≤ off ∧ off < 0x3000
  · simp only [target_of_outBuf_window hout, isOperandTarget, Bool.false_eq_true, false_iff]
    omega
  by_cases hreg : ∃ r : Reg, r.offset = off
  · obtain ⟨r, rfl⟩ := hreg
    rw [target_regOffset]
    cases r <;> simp [isOperandTarget, Reg.offset]
  · have hregs : ∀ r : Reg, r.offset ≠ off := not_exists.mp hreg
    have hcmd : 0x0008 ≠ off := hregs .cmd
    have hinLen : 0x0010 ≠ off := hregs .inLen
    simp only [target_of_no_register (by omega) hregs, isOperandTarget, Bool.false_eq_true, false_iff]
    omega

/-! ### The hazard -/

/-- A legal write that is a hazard gets no further than the fault (60_exceptions.md R113); the other legal writes are
`step_of_legal_write`. -/
theorem step_of_hazard_write {s : State} {off width : Nat} {v : Word} (hoff : off < 0x4000)
    (hlegal : legalAccess off width = true)
    (hhazard : s.status.busy = true ∧ isOperandTarget s.params (target off) = true)
    (h : s.hostMoves (.write (s.params.base + off) width v)) :
    step s = .fault (.hostHazard (s.params.base + off)) := by
  rw [step_of_hostMoves h]
  simp [State.hostAccess, State.busWrite, (inWindow_base_add s.params off).mpr hoff, hlegal, hhazard]

theorem step_of_legal_write_eq_hostHazard_iff {s : State} {off width : Nat} {v : Word} (hoff : off < 0x4000)
    (hlegal : legalAccess off width = true) (h : s.hostMoves (.write (s.params.base + off) width v)) :
    step s = .fault (.hostHazard (s.params.base + off)) ↔
      s.status.busy = true ∧ isOperandTarget s.params (target off) = true := by
  refine ⟨fun hfault => ?_, fun hhazard => step_of_hazard_write hoff hlegal hhazard h⟩
  by_contra hsafe
  cases hfault.symm.trans (step_of_legal_write hoff hlegal hsafe h)

/-- Settles O23: the hazard is BUSY = 1 at an operand target, and the address map puts the operands at these offsets. -/
theorem hostHazardExactlyOnOperandWritesWhileBusy : Obligations.HostHazardExactlyOnOperandWritesWhileBusy := by
  intro s off width v hoff hclauses hwrite
  have hlegal : legalAccess off width = true := (legalAccess_iff off width).mpr hclauses
  rw [step_of_legal_write_eq_hostHazard_iff hoff hlegal hwrite, isOperandTarget_target_iff]
  rfl

end Sys2Proof.Machine
end

