-- ==== Sys2Proof/Proofs/CodeGeometry.lean ====
section
/-! The two parity counts against each other: the range of m for each count (41_required_parity_bits.md R77, R79, R80), the
data positions (40_command.md R71), and the lengths the structural check of DEC accepts (43_decode.md R95). -/

namespace Sys2Proof.Machine

/-! ### The encode-side count by its bounds -/

/-- Once r meets the condition of R76, so does every larger r. -/
theorem parityCondition_mono {m r q : Nat} (hrq : r ≤ q) (hmeets : m + r + 1 ≤ 2 ^ r) : m + q + 1 ≤ 2 ^ q := by
  induction q, hrq using Nat.le_induction with
  | base => exact hmeets
  | succ q _ ih =>
    rw [Nat.pow_succ]
    omega

theorem requiredParityBits_le_iff {m q : Nat} (hq : 2 ≤ q) : requiredParityBits m ≤ q ↔ m + q + 1 ≤ 2 ^ q :=
  ⟨fun hle => parityCondition_mono hle (requiredParityBits_meets m), requiredParityBits_le_of_meets hq⟩

theorem requiredParityBits_eq_two_iff (m : Nat) : requiredParityBits m = 2 ↔ m ≤ 1 := by
  have hle := requiredParityBits_le_iff (m := m) (le_refl 2)
  have hge := two_le_requiredParityBits m
  omega

/-- r is the count exactly where r meets the condition and r - 1 does not. -/
theorem requiredParityBits_eq_iff {m r : Nat} (hr : 3 ≤ r) :
    requiredParityBits m = r ↔ 2 ^ (r - 1) < m + r ∧ m + r < 2 ^ r := by
  have hle := requiredParityBits_le_iff (m := m) (show 2 ≤ r by omega)
  have hlt := requiredParityBits_le_iff (m := m) (show 2 ≤ r - 1 by omega)
  omega

/-- Settles O28: r is the count exactly where it meets the condition of R76 and r - 1 does not. -/
theorem requiredParityBitsRanges : Obligations.RequiredParityBitsRanges := by
  refine ⟨requiredParityBits_eq_two_iff, fun r m hr => ?_⟩
  have hpow : r - 1 < 2 ^ (r - 1) := Nat.lt_two_pow_self
  rw [requiredParityBits_eq_iff hr]
  omega

theorem requiredParityBits_mono {m m' : Nat} (hle : m ≤ m') : requiredParityBits m ≤ requiredParityBits m' := by
  have hmeets := requiredParityBits_meets m'
  exact requiredParityBits_le_of_meets (two_le_requiredParityBits m') (by omega)

/-- Settles O29: the count of the larger m meets the condition for the smaller m too. -/
theorem requiredParityBitsIsMonotone : Obligations.RequiredParityBitsIsMonotone :=
  ⟨fun _ _ => requiredParityBits_mono, requiredParityBits_zero, two_le_requiredParityBits⟩

/-! ### The length of a codeword -/

/-- n = m + r, the length of ENC's codeword for m data bits (42_encode.md R83). -/
def encodedLength (m : Nat) : Nat := m + requiredParityBits m

theorem encodedLength_lt_two_pow (m : Nat) : encodedLength m < 2 ^ requiredParityBits m := by
  have hmeets := requiredParityBits_meets m
  unfold encodedLength
  omega

theorem two_le_encodedLength (m : Nat) : 2 ≤ encodedLength m := (two_le_requiredParityBits m).trans (Nat.le_add_left _ m)

theorem encodedLength_mono {m m' : Nat} (hle : m ≤ m') : encodedLength m ≤ encodedLength m' :=
  Nat.add_le_add hle (requiredParityBits_mono hle)

theorem two_pow_pred_le_encodedLength (m : Nat) : 2 ^ (requiredParityBits m - 1) ≤ encodedLength m := by
  unfold encodedLength
  rcases Nat.eq_or_lt_of_le (two_le_requiredParityBits m) with htwo | hthree
  · rw [← htwo]
    omega
  · obtain ⟨hlower, -⟩ := (requiredParityBits_eq_iff hthree).mp rfl
    exact hlower.le

/-- The parity positions of a codeword are the 2^i with i < r (41_required_parity_bits.md R80). -/
theorem two_pow_le_encodedLength_iff {m i : Nat} : 2 ^ i ≤ encodedLength m ↔ i < requiredParityBits m := by
  constructor
  · intro hle
    exact (Nat.pow_lt_pow_iff_right (by omega)).mp (hle.trans_lt (encodedLength_lt_two_pow m))
  · intro hlt
    exact (Nat.pow_le_pow_right (by omega) (by omega)).trans (two_pow_pred_le_encodedLength m)

/-- Both sides of the code count the same parity bits (41_required_parity_bits.md R80). -/
@[simp] theorem presentParityBits_encodedLength (m : Nat) : presentParityBits (encodedLength m) = requiredParityBits m := by
  have hn : 1 ≤ encodedLength m := (two_le_encodedLength m).trans' one_le_two
  have hsame : ∀ i, i < presentParityBits (encodedLength m) ↔ i < requiredParityBits m := fun i =>
    (two_pow_le_iff_lt_presentParityBits hn).symm.trans two_pow_le_encodedLength_iff
  exact le_antisymm (Nat.le_of_not_lt fun h => lt_irrefl _ ((hsame _).mp h))
    (Nat.le_of_not_lt fun h => lt_irrefl _ ((hsame _).mpr h))

theorem encodedLength_sub_presentParityBits (m : Nat) :
    encodedLength m - presentParityBits (encodedLength m) = m := by
  rw [presentParityBits_encodedLength]
  exact Nat.add_sub_cancel m _

/-- Settles O30: n lies below 2^r because r meets the condition, and from 2^(r-1) on because r - 1 does not. -/
theorem encodedLengthsHoldTheirParityBits : Obligations.EncodedLengthsHoldTheirParityBits := fun m =>
  ⟨two_pow_pred_le_encodedLength m, encodedLength_lt_two_pow m, fun _ => two_pow_le_encodedLength_iff,
    presentParityBits_encodedLength m⟩

/-- Settles O38: 2^n is above n. -/
theorem dataBitCountIsNeverNegative : Obligations.DataBitCountIsNeverNegative := fun _ => presentParityBits_le

/-! ### The data positions -/

/-- The parity positions of 1..n are as many as R93 counts. -/
theorem length_parityPositions {n : Nat} (hn : 1 ≤ n) : ((positions n).filter isPow2).length = presentParityBits n := by
  have hpowers : ((positions n).filter isPow2).Perm ((List.range (presentParityBits n)).map (2 ^ ·)) := by
    refine (List.perm_ext_iff_of_nodup ?_ ?_).mpr fun p => ?_
    · exact ((positions_pairwise n).imp fun h => Nat.ne_of_lt h).filter _
    · exact List.nodup_range.map (Nat.pow_right_injective (le_refl 2))
    · simp only [List.mem_filter, mem_positions, isPow2_iff, List.mem_map, List.mem_range,
        ← two_pow_le_iff_lt_presentParityBits hn]
      constructor
      · rintro ⟨⟨-, hle⟩, i, rfl⟩
        exact ⟨i, hle, rfl⟩
      · rintro ⟨i, hle, rfl⟩
        exact ⟨⟨Nat.one_le_two_pow, hle⟩, i, rfl⟩
  simpa using hpowers.length_eq

theorem dataPos_length {n : Nat} (hn : 1 ≤ n) : (dataPos n).length = n - presentParityBits n := by
  have hsplit : (positions n).length = ((positions n).filter isPow2).length + (dataPos n).length :=
    List.length_eq_length_filter_add isPow2
  rw [positions_length, length_parityPositions hn] at hsplit
  omega

/-- A codeword of ENC has one data position per data bit. -/
@[simp] theorem dataPos_encodedLength_length (m : Nat) : (dataPos (encodedLength m)).length = m := by
  rw [dataPos_length ((two_le_encodedLength m).trans' one_le_two), encodedLength_sub_presentParityBits]

/-- Settles O39: of the n positions, the powers of two are as many as R93 counts, and the others remain. -/
theorem dataPositionsAreTheOthers : Obligations.DataPositionsAreTheOthers := by
  refine ⟨fun n p => ?members, dataPos_pairwise, fun n => dataPos_length, by decide⟩
  case members =>
    rw [mem_dataPos, ← Bool.not_eq_true, isPow2_iff, not_exists]

/-! ### The structural check -/

/-- A length passes the check exactly if it is the length of some codeword of ENC (43_decode.md R95). -/
theorem structuralCheck_iff_encodedLength {n : Nat} (hn : 1 ≤ n) :
    requiredParityBits (n - presentParityBits n) = presentParityBits n ↔ ∃ m, n = encodedLength m := by
  constructor
  · intro hpasses
    refine ⟨n - presentParityBits n, ?_⟩
    rw [encodedLength, hpasses, Nat.sub_add_cancel (presentParityBits_le hn)]
  · rintro ⟨m, rfl⟩
    rw [encodedLength_sub_presentParityBits, presentParityBits_encodedLength]

/-- With r = presentParityBits(n), n is a power of two exactly if it is the least length with r parity bits. -/
theorem eq_two_pow_iff {n k : Nat} (hn : 1 ≤ n) :
    n = 2 ^ k ↔ k = presentParityBits n - 1 ∧ n = 2 ^ (presentParityBits n - 1) := by
  refine ⟨fun hpow => ?_, fun ⟨hk, hpow⟩ => hk ▸ hpow⟩
  have hlower : k < presentParityBits n := (two_pow_le_iff_lt_presentParityBits hn).mp hpow.ge
  have hupper : ¬k + 1 < presentParityBits n := by
    rw [← two_pow_le_iff_lt_presentParityBits hn, Nat.pow_succ, ← hpow]
    omega
  obtain rfl : k = presentParityBits n - 1 := by omega
  exact ⟨rfl, hpow⟩

/-- Below three parity bits every length from 2 on passes; from three on, every one but the least, 2^(r-1)
(43_decode.md R95). -/
theorem structuralCheck_iff_not_two_pow {n : Nat} (hn : 1 ≤ n) :
    requiredParityBits (n - presentParityBits n) = presentParityBits n ↔ 2 ≤ n ∧ ∀ k, 2 ≤ k → n ≠ 2 ^ k := by
  have hle := presentParityBits_le hn
  have hlt := lt_two_pow_presentParityBits hn
  have hpos : 0 < presentParityBits n := (two_pow_le_iff_lt_presentParityBits hn).mp hn
  have hlower : 2 ^ (presentParityBits n - 1) ≤ n := (two_pow_le_iff_lt_presentParityBits hn).mpr (by omega)
  have hpowers : (∀ k, 2 ≤ k → n ≠ 2 ^ k) ↔ (2 ≤ presentParityBits n - 1 → n ≠ 2 ^ (presentParityBits n - 1)) := by
    refine ⟨fun h => h _, fun h k hk hpow => ?_⟩
    obtain ⟨rfl, hleast⟩ := (eq_two_pow_iff hn).mp hpow
    exact h hk hleast
  rw [hpowers]
  rcases Nat.lt_or_ge (presentParityBits n) 3 with hfew | hmany
  · have htwo := two_le_requiredParityBits (n - presentParityBits n)
    have hcount := requiredParityBits_eq_two_iff (n - presentParityBits n)
    interval_cases presentParityBits n <;> omega
  · have htwo : 2 ≤ n := by omega
    rw [requiredParityBits_eq_iff hmany, Nat.sub_add_cancel hle]
    omega

/-- Settles O40: both characterisations of the check. -/
theorem structuralCheckAcceptsExactlyTheLengths : Obligations.StructuralCheckAcceptsExactlyTheLengths := fun _ hn =>
  ⟨structuralCheck_iff_encodedLength hn, structuralCheck_iff_not_two_pow hn⟩

end Sys2Proof.Machine
end

