-- ==== Sys2Proof/Proofs/Syndrome.lean ====
section
/-! The syndrome as the exclusive-or of the positions that hold a 1 (43_decode.md R98), and with it the codewords of ENC: they
are systematic and their syndrome is 0 (42_encode.md R88, R89). -/

namespace Sys2Proof.Machine

/-! ### Position by position -/

theorem Codeword.xorOver_append (c : Codeword) (ps qs : List Nat) :
    c.xorOver (ps ++ qs) = (c.xorOver ps ^^ c.xorOver qs) := by
  rw [Codeword.xorOver, List.foldl_append, Codeword.foldl_xor]
  rfl

theorem checkSum_succ (c : Codeword) (n i : Nat) :
    checkSum c (n + 1) i = (checkSum c n i ^^ (c.bit (n + 1) && (n + 1).testBit i)) := by
  rw [checkSum, positions_succ, List.filter_append, Codeword.xorOver_append, ← checkSum]
  cases hbit : (n + 1).testBit i <;> simp [hbit]

theorem xorOfOnes_succ (c : Codeword) (n : Nat) :
    xorOfOnes c (n + 1) = if c.bit (n + 1) then xorOfOnes c n ^^^ (n + 1) else xorOfOnes c n := by
  simp [xorOfOnes, positions_succ]

/-- Bit i of the exclusive-or is the parity of the positions with bit i set (43_decode.md R97, R98). -/
theorem testBit_xorOfOnes (c : Codeword) (n i : Nat) : (xorOfOnes c n).testBit i = checkSum c n i := by
  induction n with
  | zero => simp [xorOfOnes, checkSum, positions]
  | succ n ih =>
    rw [xorOfOnes_succ, checkSum_succ, ← ih]
    cases c.bit (n + 1) <;> simp

/-- Above every position there is nothing to check. -/
theorem checkSum_eq_false {n i : Nat} (c : Codeword) (habove : n < 2 ^ i) : checkSum c n i = false := by
  have hnone : ((positions n).filter fun p => p.testBit i) = [] := List.filter_eq_nil_iff.mpr fun p hp => by
    obtain ⟨-, hle⟩ := (mem_positions n p).mp hp
    simp [Nat.testBit_lt_two_pow (hle.trans_lt habove)]
  simp [checkSum, hnone]

/-- With enough checks for every position the syndrome is the exclusive-or (43_decode.md R98). -/
theorem syndrome_eq_xorOfOnes {n r : Nat} (c : Codeword) (hn : n < 2 ^ r) : syndrome c n r = xorOfOnes c n := by
  refine Nat.eq_of_testBit_eq fun i => ?_
  obtain ⟨-, hbits⟩ := syndrome_spec c n r
  rw [hbits, testBit_xorOfOnes]
  rcases Nat.lt_or_ge i r with hi | hi
  · simp [hi]
  · have habove : n < 2 ^ i := hn.trans_le (Nat.pow_le_pow_right (by omega) hi)
    simp [checkSum_eq_false c habove]

theorem syndrome_presentParityBits {n : Nat} (c : Codeword) (hn : 1 ≤ n) :
    syndrome c n (presentParityBits n) = xorOfOnes c n :=
  syndrome_eq_xorOfOnes c (lt_two_pow_presentParityBits hn)

/-! ### Flipped bits -/

/-- A flip at q changes the exclusive-or by q, where there is a position q; 0 is none, and changes nothing. -/
theorem xorOfOnes_of_flip {c c' : Codeword} {n q : Nat}
    (hflip : ∀ p, 1 ≤ p → p ≤ n → c'.bit p = (c.bit p ^^ decide (p = q))) :
    xorOfOnes c' n = if q ≤ n then xorOfOnes c n ^^^ q else xorOfOnes c n := by
  induction n with
  | zero =>
    split_ifs with hzero
    · rw [Nat.le_zero.mp hzero, Nat.xor_zero]
      rfl
    · rfl
  | succ n ih =>
    rw [xorOfOnes_succ, xorOfOnes_succ, hflip (n + 1) (by omega) le_rfl,
      ih fun p hp hle => hflip p hp (by omega)]
    rcases Nat.lt_trichotomy q (n + 1) with hlt | rfl | hgt
    · rw [if_pos (show q ≤ n by omega), if_pos hlt.le, decide_eq_false (by omega), Bool.xor_false]
      split_ifs
      · ac_rfl
      · rfl
    · rw [if_neg (show ¬n + 1 ≤ n by omega), if_pos le_rfl]
      cases c.bit (n + 1) <;> simp
    · rw [if_neg (show ¬q ≤ n by omega), if_neg (show ¬q ≤ n + 1 by omega), decide_eq_false (by omega), Bool.xor_false]

theorem Codeword.bit_flip {c : Codeword} {q : Nat} (hq : 1 ≤ q) (hle : q ≤ c.length) {p : Nat} (hp : 1 ≤ p) :
    (c.setBit q (!c.bit q)).bit p = (c.bit p ^^ decide (p = q)) := by
  rw [Codeword.bit_setBit c _ hq hp]
  by_cases heq : p = q
  · simp [heq, hle]
  · simp [heq]

theorem xorOfOnes_setBit_not {c : Codeword} {n q : Nat} (hlen : c.length = n) (hq : 1 ≤ q) (hle : q ≤ n) :
    xorOfOnes (c.setBit q (!c.bit q)) n = xorOfOnes c n ^^^ q := by
  rw [xorOfOnes_of_flip fun p hp _ => Codeword.bit_flip hq (hlen ▸ hle) hp, if_pos hle]

theorem xorOfOnes_replicate_false (n m : Nat) : xorOfOnes (List.replicate m false) n = 0 := by
  induction n with
  | zero => rfl
  | succ n ih =>
    have hbit : Codeword.bit (List.replicate m false) (n + 1) = false := by
      simp only [Codeword.bit, List.getD_eq_getElem?_getD, List.getElem?_replicate]
      split_ifs <;> rfl
    simp [xorOfOnes_succ, hbit, ih]

theorem exists_xorOfOnes_xor {c : Codeword} {n q : Nat} (hlen : c.length = n) (hq : 1 ≤ q) (hle : q ≤ n) :
    ∃ c' : Codeword, c'.length = n ∧ xorOfOnes c' n = xorOfOnes c n ^^^ q :=
  ⟨c.setBit q (!c.bit q), by simpa using hlen, xorOfOnes_setBit_not hlen hq hle⟩

/-- Any two positions are the ones of some codeword. -/
theorem exists_xorOfOnes_eq_xor {n p q : Nat} (hp : 1 ≤ p) (hpn : p ≤ n) (hq : 1 ≤ q) (hqn : q ≤ n) :
    ∃ c : Codeword, c.length = n ∧ xorOfOnes c n = p ^^^ q := by
  obtain ⟨c, hlen, hxor⟩ := exists_xorOfOnes_xor (c := List.replicate n false) (by simp) hp hpn
  obtain ⟨c', hlen', hxor'⟩ := exists_xorOfOnes_xor hlen hq hqn
  exact ⟨c', hlen', by rw [hxor', hxor, xorOfOnes_replicate_false, Nat.zero_xor]⟩

theorem two_pow_xor_of_lt {i low : Nat} (hlow : low < 2 ^ i) : 2 ^ i ^^^ low = 2 ^ i + low := by
  refine Nat.eq_of_testBit_eq fun j => ?_
  rw [Nat.testBit_xor, Nat.testBit_two_pow]
  rcases Nat.lt_trichotomy j i with hj | rfl | hj
  · simp [Nat.testBit_two_pow_add_gt hj, show i ≠ j by omega]
  · simp [Nat.testBit_two_pow_add_eq]
  · have hpow : 2 ^ (i + 1) ≤ 2 ^ j := Nat.pow_le_pow_right (by omega) hj
    rw [Nat.pow_succ] at hpow
    simp [Nat.testBit_lt_two_pow (show low < 2 ^ j by omega), Nat.testBit_lt_two_pow (show 2 ^ i + low < 2 ^ j by omega),
      show i ≠ j by omega]

/-- n + 1 is the exclusive-or of its leading power of two and the rest, and both are positions unless n + 1 is that power
(43_decode.md R98). -/
theorem exists_syndrome_above {n : Nat} (hn : 1 ≤ n) (hroom : n ≠ 2 ^ presentParityBits n - 1) :
    ∃ c : Codeword, c.length = n ∧ n < syndrome c n (presentParityBits n) := by
  have hlt := lt_two_pow_presentParityBits hn
  have hpos : 0 < presentParityBits n := (two_pow_le_iff_lt_presentParityBits hn).mp hn
  have hlower : 2 ^ (presentParityBits n - 1) ≤ n := (two_pow_le_iff_lt_presentParityBits hn).mpr (by omega)
  have hdouble : 2 ^ presentParityBits n = 2 * 2 ^ (presentParityBits n - 1) := by
    rw [← Nat.pow_succ', Nat.succ_eq_add_one, Nat.sub_add_cancel hpos]
  have hlow : n + 1 - 2 ^ (presentParityBits n - 1) < 2 ^ (presentParityBits n - 1) := by omega
  obtain ⟨c, hlen, hxor⟩ := exists_xorOfOnes_eq_xor (n := n) (p := 2 ^ (presentParityBits n - 1))
    (q := n + 1 - 2 ^ (presentParityBits n - 1)) Nat.one_le_two_pow hlower (by omega) (by omega)
  refine ⟨c, hlen, ?_⟩
  rw [syndrome_presentParityBits c hn, hxor, two_pow_xor_of_lt hlow]
  omega

/-- Settles O41: with r = presentParityBits(n) checks every position is seen, so the syndrome is the exclusive-or. -/
theorem syndromeIsTheXorOfPositions : Obligations.SyndromeIsTheXorOfPositions := by
  intro n c hn hlen
  refine ⟨?range, exists_syndrome_above hn, syndrome_presentParityBits c hn, fun q hq hle => ?flip⟩
  case range =>
    obtain ⟨hlt, -⟩ := syndrome_spec c n (presentParityBits n)
    omega
  case flip =>
    rw [syndrome_presentParityBits _ hn, syndrome_presentParityBits _ hn, xorOfOnes_setBit_not hlen hq hle]

/-! ### The codewords of ENC -/

@[simp] theorem encCodeword_length (k : Nat) (input : Nat → Bool) :
    (encCodeword k input).length = encodedLength (8 * k) :=
  encodeBits_length _ _ _

/-- Every parity bit makes its check even (42_encode.md R85). -/
theorem checkSum_encCodeword {k i : Nat} (input : Nat → Bool) (hi : i < requiredParityBits (8 * k)) :
    checkSum (encCodeword k input) (encodedLength (8 * k)) i = false := by
  have hle : 2 ^ i ≤ encodedLength (8 * k) := two_pow_le_encodedLength_iff.mpr hi
  have hparity : (encCodeword k input).bit (2 ^ i) = parityBit (encCodeword k input) (encodedLength (8 * k)) i :=
    encodeBits_bit_parity hi hle
  rw [checkSum_eq hle, hparity, Bool.xor_self]

theorem xorOfOnes_encCodeword (k : Nat) (input : Nat → Bool) :
    xorOfOnes (encCodeword k input) (encodedLength (8 * k)) = 0 := by
  refine Nat.eq_of_testBit_eq fun i => ?_
  rw [testBit_xorOfOnes, Nat.zero_testBit]
  rcases Nat.lt_or_ge i (requiredParityBits (8 * k)) with hi | hi
  · exact checkSum_encCodeword input hi
  · exact checkSum_eq_false _
      ((encodedLength_lt_two_pow (8 * k)).trans_le (Nat.pow_le_pow_right (by omega) hi))

/-- Settles O35: every check of a codeword is even, and the checks see every position. -/
theorem encodedWordsHaveSyndromeZero : Obligations.EncodedWordsHaveSyndromeZero := fun k input =>
  ⟨(syndrome_eq_xorOfOnes _ (encodedLength_lt_two_pow (8 * k))).trans (xorOfOnes_encCodeword k input),
    xorOfOnes_encCodeword k input⟩

/-- The i-th data position of a codeword holds message bit i (42_encode.md R84). -/
theorem encCodeword_bit_dataPos {k i p : Nat} (input : Nat → Bool) (hp : (dataPos (encodedLength (8 * k)))[i]? = some p) :
    i < 8 * k ∧ (encCodeword k input).bit p = input i := by
  obtain ⟨hi, rfl⟩ := List.getElem?_eq_some_iff.mp hp
  have hdata : i < 8 * k := by simpa using hi
  refine ⟨hdata, ?_⟩
  calc (encCodeword k input).bit (dataPos (encodedLength (8 * k)))[i]
      = (dataBits k input)[i]'(by simpa using hdata) := encodeBits_bit_data hi (by simpa using hdata)
    _ = input i := dataBits_getElem input (by simpa using hdata)

theorem extract_encCodeword (k : Nat) (input : Nat → Bool) :
    extract (encCodeword k input) (encodedLength (8 * k)) = dataBits k input := by
  refine List.ext_getElem (by simp) fun i hi hi' => ?_
  rw [extract_getElem, dataBits_getElem]
  exact (encCodeword_bit_dataPos input (List.getElem?_eq_getElem _)).2

theorem encCodeword_congr {k : Nat} {input input' : Nat → Bool} (h : ∀ j, j < 8 * k → input j = input' j) :
    encCodeword k input = encCodeword k input' := by
  simp only [encCodeword, dataBits_congr h]

/-- Settles O36: the extractor undoes the injector, and the serialiser reads only the message bits. -/
theorem encodingIsSystematic : Obligations.EncodingIsSystematic := fun k input _ =>
  ⟨extract_encCodeword k input, encCodeword_congr⟩

end Sys2Proof.Machine
end

