-- ==== Sys2Proof/Proofs/EncOutput.lean ====
section
/-! What ENC leaves in OUT_BUF: the systematic even-parity codeword, and nothing where the message does not fit
(42_encode.md R81). -/

namespace Sys2Proof.Machine

/-- The exclusive-or over positions is the parity of how many of them hold a 1. -/
theorem Codeword.xorOver_eq_false_iff (c : Codeword) (ps : List Nat) :
    c.xorOver ps = false ↔ (ps.filter c.bit).length % 2 = 0 := by
  induction ps with
  | nil => simp
  | cons p ps ih =>
    rw [Codeword.xorOver_cons]
    cases hbit : c.bit p
    · simpa [hbit] using ih
    · rw [List.filter_cons_of_pos hbit, List.length_cons, Bool.true_xor, Bool.not_eq_false', ← Bool.not_eq_false, ih]
      omega

/-- OUT after ENC of a message that fits is the codeword and its padding (42_encode.md R87, 20_memory.md R39). -/
theorem enc_outBit {s : State} (hfits : s.operand ≤ s.params.kMax) {j : Nat}
    (hj : j < 8 * bytesFor (encodedLength (8 * s.operand))) :
    (s.complete (encCompletion s.params.kMax s.operand s.inBit)).outBit j
      = (encCodeword s.operand s.inBit).getD j false := by
  refine s.complete_outBit (encCompletion_out_of_le hfits s.inBit) ?_
  rw [encCodeword_length]
  omega

theorem le_eight_mul_bytesFor (bits : Nat) : bits ≤ 8 * bytesFor bits := by
  unfold bytesFor
  omega

/-- OUT[p-1] is position p of the codeword. -/
theorem enc_outBit_eq_bit {s : State} (hfits : s.operand ≤ s.params.kMax) {p : Nat} (hp : 1 ≤ p)
    (hle : p ≤ encodedLength (8 * s.operand)) :
    (s.complete (encCompletion s.params.kMax s.operand s.inBit)).outBit (p - 1)
      = (encCodeword s.operand s.inBit).bit p := by
  have hbytes := le_eight_mul_bytesFor (encodedLength (8 * s.operand))
  exact enc_outBit hfits (by omega)

/-- Settles O32: OUT is the codeword position by position; its data positions hold the message and its checks are even. -/
theorem encWritesTheCodeword : Obligations.EncWritesTheCodeword := by
  intro s hfits
  refine enc_completes_of_le hfits ⟨fun i p hp => ?data, fun i hi => ?parity, fun j hj hj' => ?padding⟩
  case data =>
    obtain ⟨hpos, hle, -⟩ := (mem_dataPos _ p).mp (List.mem_of_getElem? hp)
    rw [enc_outBit_eq_bit hfits hpos hle]
    exact (encCodeword_bit_dataPos s.inBit hp).2
  case parity =>
    have heven := (Codeword.xorOver_eq_false_iff _ _).mp (checkSum_encCodeword s.inBit hi)
    rw [List.filter_filter] at heven
    rw [← heven]
    congr 2
    refine List.filter_congr fun p hp => ?_
    obtain ⟨hpos, hle⟩ := (mem_positions _ p).mp hp
    rw [enc_outBit_eq_bit hfits hpos hle, Bool.and_comm]
  case padding =>
    have hbeyond : (encCodeword s.operand s.inBit).length ≤ j := by rwa [encCodeword_length]
    rw [enc_outBit hfits hj']
    simp [List.getD_eq_getElem?_getD, List.getElem?_eq_none hbeyond]

theorem encCompletion_of_over_capacity {kMax k : Nat} (hover : kMax < k) (input : Nat → Bool) :
    encCompletion kMax k input = .reject .capacityExceeded :=
  if_pos hover

/-- Settles O33: the capacity check is ENC's only one, and it rejects. -/
theorem encOverCapacityIsRejected : Obligations.EncOverCapacityIsRejected := by
  intro s hover
  have hreject : exec .enc s = .next (s.complete (.reject .capacityExceeded)) := by
    rw [exec_enc, encCompletion_of_over_capacity hover]
  exact completes_of_reject hreject (by decide)

end Sys2Proof.Machine
end

