-- ==== Sys2Proof/Proofs/DecFailures.lean ====
section
/-! The ways DEC gives no message after its capacity check: nothing to decode, an impossible length, a message that is no
whole number of bytes (43_decode.md R92, R95, R103). -/

namespace Sys2Proof.Machine

/-- The registers stay as reported, whatever else the completed state is shown to meet. -/
theorem completes_imp {o : Host.Outcome State Fault Refusal}
    {status outLen resR resM resN syndrome flags errPos : Nat} {rest rest' : State → Prop}
    (h : Completes o status outLen resR resM resN syndrome flags errPos rest)
    (himp : ∀ t, o = .next t → rest t → rest' t) :
    Completes o status outLen resR resM resN syndrome flags errPos rest' := by
  obtain ⟨t, ho, hstatus, houtLen, hresR, hresM, hresN, hsyndrome, hflags, herrPos, hrest⟩ := h
  exact ⟨t, ho, hstatus, houtLen, hresR, hresM, hresN, hsyndrome, hflags, herrPos, himp t ho hrest⟩

theorem decCompletion_zero (nMax : Nat) (input : Nat → Bool) :
    decCompletion nMax 0 input = decDone .emptyInput 0 0 0 0 Flags.none 0 [] := by
  simp [decCompletion]

theorem decCompletion_of_check_failed {nMax n : Nat} (hfits : n ≤ nMax) (hne : n ≠ 0)
    (hlength : requiredParityBits (n - presentParityBits n) ≠ presentParityBits n) (input : Nat → Bool) :
    decCompletion nMax n input
      = decDone .structurallyInvalid n (presentParityBits n) (n - presentParityBits n) 0 Flags.none 0 [] := by
  obtain ⟨hover, -⟩ | ⟨-, hzero, -⟩ | ⟨-, -, -, hdone⟩ | ⟨-, -, hpasses, -⟩ := decCompletion_cases nMax n input
  · omega
  · exact absurd hzero hne
  · exact hdone
  · exact absurd hpasses hlength

theorem decLocated_of_unaligned {n m syn : Nat} (hsyn : syn ≤ n) (hunaligned : m % 8 ≠ 0) (r : Nat) (c : Codeword) :
    decLocated n r m c syn = decDone .alignmentError n r m syn (Flags.located syn) 0 [] := by
  obtain ⟨habove, -⟩ | ⟨-, -, hdone⟩ | ⟨-, haligned, -⟩ := decLocated_cases n r m c syn
  · omega
  · exact hdone
  · exact absurd haligned hunaligned

theorem located_word (syn : Nat) :
    (Flags.located syn).word = BitVec.ofNat 32 (if syn = 0 then 0x08 else 0x0F) := by
  unfold Flags.located
  split_ifs <;> decide

/-- Settles O43: an empty operand is within every capacity, and DEC looks no further. -/
theorem decOfNothingIsEmptyInput : Obligations.DecOfNothingIsEmptyInput := by
  intro s hempty
  have hdone : decCompletion (instanceNMax s.params) s.operand s.inBit
      = decDone .emptyInput 0 0 0 0 Flags.none 0 [] := by
    rw [hempty, decCompletion_zero]
  exact dec_completes_of_decDone hdone (by decide) (by decide) rfl rfl

/-- Settles O44: the structural check comes before the operand is read. -/
theorem decOfAnImpossibleLength : Obligations.DecOfAnImpossibleLength := by
  intro s hfits hne hlength
  exact dec_completes_of_decDone (decCompletion_of_check_failed hfits hne hlength s.inBit) (by decide) (by decide) rfl rfl

/-- Settles O46: alignment is checked last, so the locator's report stands. -/
theorem decOfAnUnalignedMessage : Obligations.DecOfAnUnalignedMessage := by
  intro s hfits hne hlength hsyn hunaligned
  have hdone := (decCompletion_of_checks_passed hfits hne hlength).trans (decLocated_of_unaligned hsyn hunaligned _ _)
  exact dec_completes_of_decDone hdone (by decide) (located_word _) (errPosOf_located _) rfl

end Sys2Proof.Machine
end

