-- ==== Sys2Proof/Proofs/RegisterWords.lean ====
section
/-! STATUS, FLAGS and PARAM as words (10_state.md R17, R19, R27). -/

namespace Sys2Proof.Machine

theorem Status.word_bits (st : Status) :
    st.word.getLsbD 0 = st.busy ∧ st.word.getLsbD 1 = st.done ∧ st.word.extractLsb' 2 2 = 0#2
      ∧ st.word.extractLsb' 4 4 = st.code.value ∧ st.word.extractLsb' 8 24 = 0#24 := by
  obtain ⟨busy, done, code⟩ := st
  cases busy <;> cases done <;> cases code <;> decide

theorem Flags.word_bits (f : Flags) :
    f.word.getLsbD 0 = f.errDet ∧ f.word.getLsbD 1 = f.errCor ∧ f.word.getLsbD 2 = f.posValid
      ∧ f.word.getLsbD 3 = f.repairable ∧ f.word.getLsbD 4 = f.msgValid ∧ f.word.extractLsb' 5 27 = 0#27 := by
  obtain ⟨errDet, errCor, posValid, repairable, msgValid⟩ := f
  revert errDet errCor posValid repairable msgValid
  decide

/-- Settles O24: the words are put together from the fields, with zeros between. -/
theorem statusAndFlagsBits : Obligations.StatusAndFlagsBits := fun s =>
  ⟨s.status.word_bits, s.results.flags.word_bits⟩

end Sys2Proof.Machine
end

