-- ==== Sys2Proof/Proofs/RoundTrip.lean ====
section
/-! DEC of what ENC wrote, with no bit, one bit or two bits flipped on the way (43_decode.md R106, R107, R108). -/

namespace Sys2Proof.Machine

/-! ### A codeword received with errors -/

/-- The DEC operand of `u` is ENC's codeword for the ENC operand of `s`, with the bits flipped at the positions where `err`
holds. -/
structure ReceivesCodeword (s u : State) (err : Nat → Bool) : Prop where
  params_eq : u.params = s.params
  operand_eq : u.operand = encodedLength (8 * s.operand)
  inBit_eq : ∀ p, 1 ≤ p → p ≤ encodedLength (8 * s.operand) →
    u.inBit (p - 1) = ((encCodeword s.operand s.inBit).bit p ^^ err p)

/-- Lengths fit 15 bits in a legal instance (00_scope.md R8). -/
theorem nMaxOf_lt_of_wf {p : Config.Params} (hwf : p.wf = true) : nMaxOf p.kMax < 2 ^ 15 := by
  simp only [Config.Params.wf, Bool.and_eq_true, decide_eq_true_eq] at hwf
  obtain ⟨⟨-, hmax⟩, -⟩ := hwf
  have hparity : requiredParityBits (8 * p.kMax) ≤ 15 := requiredParityBits_le_of_meets (by decide) (by omega)
  unfold nMaxOf
  omega

theorem encodedLength_le_nMaxOf {k kMax : Nat} (hfits : k ≤ kMax) : encodedLength (8 * k) ≤ nMaxOf kMax :=
  encodedLength_mono (Nat.mul_le_mul_left 8 hfits)

/-- OUT_LEN after ENC of a message that fits (42_encode.md R87). -/
theorem enc_outLen {s t : State} (hwf : s.params.wf = true) (hfits : s.operand ≤ s.params.kMax)
    (henc : exec .enc s = .next t) : t.results.outLen.toNat = encodedLength (8 * s.operand) := by
  obtain ⟨t', hnext, -, houtLen, -⟩ := enc_completes_of_le hfits (rest := fun _ => True) trivial
  cases henc.symm.trans hnext
  have hsmall := (encodedLength_le_nMaxOf hfits).trans_lt (nMaxOf_lt_of_wf hwf)
  calc t.results.outLen.toNat = (BitVec.ofNat 32 (encodedLength (8 * s.operand))).toNat := congrArg BitVec.toNat houtLen
    _ = encodedLength (8 * s.operand) := by
      rw [BitVec.toNat_ofNat]
      exact Nat.mod_eq_of_lt (by omega)

/-- The host carries OUT over to IN and OUT_LEN over to IN_LEN (42_encode.md R87). -/
theorem receivesCodeword_of_enc {s t u : State} {err : Nat → Bool} (hwf : s.params.wf = true)
    (hfits : s.operand ≤ s.params.kMax) (henc : exec .enc s = .next t) (hparams : u.params = s.params)
    (hlen : u.inFlight.len = t.results.outLen)
    (hbits : ∀ j, j < t.results.outLen.toNat → u.inBit j = (t.outBit j ^^ err (j + 1))) : ReceivesCodeword s u err := by
  have houtLen := enc_outLen hwf hfits henc
  refine ⟨hparams, by rw [State.operand, hlen, houtLen], fun p hp hle => ?_⟩
  rw [hbits (p - 1) (by omega), Nat.sub_add_cancel hp]
  cases henc
  rw [enc_outBit_eq_bit hfits hp hle]

/-- A length of whole bytes goes through OUT_LEN unchanged. -/
theorem State.ofNat_operand (s : State) : BitVec.ofNat 32 s.operand = s.inFlight.len := by
  simp [State.operand]

namespace ReceivesCodeword

variable {s u : State} {err : Nat → Bool}

/-- Such an operand passes the capacity and the structural check (43_decode.md R107). -/
theorem checks_passed (h : ReceivesCodeword s u err) (hfits : s.operand ≤ s.params.kMax) :
    u.operand ≤ nMaxOf u.params.kMax ∧ u.operand ≠ 0
      ∧ requiredParityBits (u.operand - presentParityBits u.operand) = presentParityBits u.operand := by
  rw [h.operand_eq, h.params_eq, encodedLength_sub_presentParityBits, presentParityBits_encodedLength]
  have htwo := two_le_encodedLength (8 * s.operand)
  exact ⟨encodedLength_le_nMaxOf hfits, by omega, rfl⟩

theorem loadCodeword_bit_eq (h : ReceivesCodeword s u err) {p : Nat} (hp : 1 ≤ p)
    (hle : p ≤ encodedLength (8 * s.operand)) :
    (loadCodeword u.operand u.inBit).bit p = ((encCodeword s.operand s.inBit).bit p ^^ err p) := by
  rw [loadCodeword_bit u.inBit hp (h.operand_eq ▸ hle), h.inBit_eq p hp hle]

theorem operandSyndrome_eq (h : ReceivesCodeword s u err) :
    u.operandSyndrome = xorOfOnes (loadCodeword u.operand u.inBit) (encodedLength (8 * s.operand)) := by
  have htwo := two_le_encodedLength (8 * s.operand)
  rw [State.operandSyndrome, syndrome_presentParityBits _ (by rw [h.operand_eq]; omega), h.operand_eq]

/-- The codeword itself adds nothing to the syndrome (43_decode.md R106). -/
theorem operandSyndrome_of_flip {q : Nat} (h : ReceivesCodeword s u fun p => decide (p = q))
    (hq : q ≤ encodedLength (8 * s.operand)) : u.operandSyndrome = q := by
  rw [h.operandSyndrome_eq, xorOfOnes_of_flip fun p => h.loadCodeword_bit_eq, if_pos hq, xorOfOnes_encCodeword,
    Nat.zero_xor]

/-- Two flips add up (43_decode.md R108). -/
theorem operandSyndrome_of_two_flips {p q : Nat} (h : ReceivesCodeword s u fun x => decide (x = p) ^^ decide (x = q))
    (hp : 1 ≤ p) (hpn : p ≤ encodedLength (8 * s.operand)) (hqn : q ≤ encodedLength (8 * s.operand)) :
    u.operandSyndrome = p ^^^ q := by
  have hlen := encCodeword_length s.operand s.inBit
  have hflips : ∀ x, 1 ≤ x → x ≤ encodedLength (8 * s.operand) →
      (loadCodeword u.operand u.inBit).bit x
        = (((encCodeword s.operand s.inBit).setBit p (!(encCodeword s.operand s.inBit).bit p)).bit x ^^ decide (x = q)) := by
    intro x hx hle
    rw [h.loadCodeword_bit_eq hx hle, Codeword.bit_flip hp (hlen ▸ hpn) hx, Bool.xor_assoc]
  rw [h.operandSyndrome_eq, xorOfOnes_of_flip hflips, if_pos hqn, xorOfOnes_setBit_not hlen hp hpn, xorOfOnes_encCodeword,
    Nat.zero_xor]

/-! ### What DEC makes of it -/

/-- Up to n, DEC takes the syndrome for the position of a single error: message bit i comes out wrong where just one of the
errors and the correction hits the i-th data position (43_decode.md R100 to R104). -/
theorem dec_completes (h : ReceivesCodeword s u err) (hfits : s.operand ≤ s.params.kMax)
    (hsyn : u.operandSyndrome ≤ encodedLength (8 * s.operand)) :
    Completes (exec .dec u) 0x02 s.operand (requiredParityBits (8 * s.operand)) (8 * s.operand)
      (encodedLength (8 * s.operand)) u.operandSyndrome (if u.operandSyndrome = 0 then 0x18 else 0x1F) u.operandSyndrome
      fun v => ∀ i p, (dataPos (encodedLength (8 * s.operand)))[i]? = some p →
        v.outBit i = (s.inBit i ^^ err p ^^ decide (p = u.operandSyndrome)) := by
  obtain ⟨hcapacity, hne, hlength⟩ := h.checks_passed hfits
  have hsub : u.operand - presentParityBits u.operand = 8 * s.operand := by
    rw [h.operand_eq, encodedLength_sub_presentParityBits]
  have hcompletes := decWritesTheCorrectedMessage u hcapacity hne hlength (h.operand_eq ▸ hsyn) (by omega)
  rw [hsub, Nat.mul_div_cancel_left _ (by omega), h.operand_eq, presentParityBits_encodedLength] at hcompletes
  refine completes_imp hcompletes fun v _ hmessage i p hp => ?_
  obtain ⟨hpos, hle, -⟩ := (mem_dataPos _ p).mp (List.mem_of_getElem? hp)
  rw [← (encCodeword_bit_dataPos s.inBit hp).2, ← h.inBit_eq p hpos hle]
  exact hmessage i p hp

end ReceivesCodeword

/-- Streams that agree in the bits of their first k bytes agree in these bytes (20_memory.md R38). -/
theorem byte_eq_of_streamBit_eq {f g : Nat → Byte} {k : Nat} (h : ∀ i, i < 8 * k → streamBit f i = streamBit g i) {b : Nat}
    (hb : b < k) : f b = g b := by
  refine BitVec.eq_of_getLsbD_eq fun j hj => ?_
  have hbit := h (8 * b + (7 - j)) (by omega)
  have hbyte : (8 * b + (7 - j)) / 8 = b := by omega
  have hindex : 7 - (8 * b + (7 - j)) % 8 = j := by omega
  simpa only [streamBit, hbyte, hindex] using hbit

/-- With at most one bit flipped, at q, or at none for q = 0, the correction undoes the error (43_decode.md R106, R107). -/
theorem ReceivesCodeword.dec_of_flip {s u : State} {q : Nat} (h : ReceivesCodeword s u fun p => decide (p = q))
    (hfits : s.operand ≤ s.params.kMax) (hq : q ≤ encodedLength (8 * s.operand)) :
    Completes (exec .dec u) 0x02 s.operand (requiredParityBits (8 * s.operand)) (8 * s.operand)
      (encodedLength (8 * s.operand)) q (if q = 0 then 0x18 else 0x1F) q
      fun v => ∀ b, b < s.operand → v.outByte b = s.inByte b := by
  have hsyn := h.operandSyndrome_of_flip hq
  have hcompletes := h.dec_completes hfits (hsyn ▸ hq)
  rw [hsyn] at hcompletes
  refine completes_imp hcompletes fun v _ hmessage b => byte_eq_of_streamBit_eq fun i hi => ?_
  have hpos : i < (dataPos (encodedLength (8 * s.operand))).length := by simpa using hi
  have hbit := hmessage i _ (List.getElem?_eq_getElem hpos)
  rwa [Bool.xor_assoc, Bool.xor_self, Bool.xor_false] at hbit

/-- Settles O48: the operand is the codeword with no position flipped. -/
theorem decodeOfEncodeGivesTheMessageBack : Obligations.DecodeOfEncodeGivesTheMessageBack := by
  intro s t u hwf hfits henc hparams hlen hbits
  have hreceives : ReceivesCodeword s u fun p => decide (p = 0) :=
    receivesCodeword_of_enc hwf hfits henc hparams hlen (by simpa using hbits)
  obtain ⟨v, hdec, hstatus, houtLen, -, -, -, hsyndrome, hflags, -, hmessage⟩ :=
    hreceives.dec_of_flip hfits (Nat.zero_le _)
  exact ⟨v, hdec, hstatus, hsyndrome, hflags, houtLen.trans s.ofNat_operand, hmessage⟩

/-- Settles O49: the syndrome is the flipped position, so the correction is the same flip again. -/
theorem decodeCorrectsEverySingleFlip : Obligations.DecodeCorrectsEverySingleFlip := by
  intro s t u p hwf hfits henc hparams hlen hp hpn hbits
  have hreceives : ReceivesCodeword s u fun x => decide (x = p) :=
    receivesCodeword_of_enc hwf hfits henc hparams hlen hbits
  rw [enc_outLen hwf hfits henc] at hpn
  obtain ⟨v, hdec, hstatus, houtLen, -, -, -, hsyndrome, hflags, herrPos, hmessage⟩ := hreceives.dec_of_flip hfits hpn
  rw [if_neg (show p ≠ 0 by omega)] at hflags
  obtain ⟨-, herrDet, herrCor, -⟩ := statusAndFlagsBits v
  rw [hflags] at herrDet herrCor
  exact ⟨v, hdec, hstatus, hsyndrome, herrDet.symm, herrCor.symm, herrPos, houtLen.trans s.ofNat_operand, hmessage⟩

/-! ### Two flipped bits -/

/-- Of two positions and their exclusive-or, at most two are powers of two (43_decode.md R108). -/
theorem exists_not_isPow2_of_xor {p q : Nat} (hne : p ≠ q) :
    ∃ x, (x = p ∨ x = q ∨ x = p ^^^ q) ∧ isPow2 x = false := by
  by_contra hall
  have hpow : ∀ x, (x = p ∨ x = q ∨ x = p ^^^ q) → ∃ i, x = 2 ^ i := fun x hx =>
    (isPow2_iff x).mp (by simpa using fun hnot => hall ⟨x, hx, hnot⟩)
  obtain ⟨a, rfl⟩ := hpow p (.inl rfl)
  obtain ⟨b, rfl⟩ := hpow q (.inr (.inl rfl))
  obtain ⟨c, hxor⟩ := hpow _ (.inr (.inr rfl))
  have hab : a ≠ b := fun heq => hne (by rw [heq])
  have hbits : ∀ i, (decide (a = i) ^^ decide (b = i)) = decide (c = i) := fun i => by
    rw [← Nat.testBit_two_pow, ← Nat.testBit_two_pow, ← Nat.testBit_two_pow, ← Nat.testBit_xor, hxor]
  have hca : c = a := by simpa [hab.symm] using hbits a
  have hcb : c = b := by simpa [hab] using hbits b
  exact hab (hca.symm.trans hcb)

/-- Of the three flips of a wrong correction each position takes at most one (43_decode.md R108). -/
theorem xor_of_three_flips {p q x : Nat} (hp : p ≠ 0) (hq : q ≠ 0) (hne : p ≠ q) (hx : x = p ∨ x = q ∨ x = p ^^^ q) :
    (decide (x = p) ^^ decide (x = q) ^^ decide (x = p ^^^ q)) = true := by
  have hxp : p ^^^ q ≠ p := by simpa using hq
  have hxq : p ^^^ q ≠ q := by simpa using hp
  rcases hx with rfl | rfl | rfl
  · simp [hne, hxp.symm]
  · simp [hne.symm, hxq.symm]
  · simp [hxp, hxq]

/-- After a wrong correction some byte of the message is wrong. -/
theorem exists_wrong_byte {s v : State} {p q : Nat} (hp : 1 ≤ p) (hq : 1 ≤ q) (hne : p ≠ q)
    (hpn : p ≤ encodedLength (8 * s.operand)) (hqn : q ≤ encodedLength (8 * s.operand))
    (hxn : p ^^^ q ≤ encodedLength (8 * s.operand))
    (hmessage : ∀ i x, (dataPos (encodedLength (8 * s.operand)))[i]? = some x →
      v.outBit i = (s.inBit i ^^ (decide (x = p) ^^ decide (x = q)) ^^ decide (x = p ^^^ q))) :
    ∃ b, b < s.operand ∧ v.outByte b ≠ s.inByte b := by
  obtain ⟨x, hx, hdata⟩ := exists_not_isPow2_of_xor hne
  have hxor : p ^^^ q ≠ 0 := fun hzero => hne (Nat.xor_eq_zero_iff.mp hzero)
  have hmem : x ∈ dataPos (encodedLength (8 * s.operand)) := (mem_dataPos _ x).mpr ⟨by omega, by omega, hdata⟩
  obtain ⟨i, hi⟩ := List.mem_iff_getElem?.mp hmem
  obtain ⟨hi8, -⟩ := encCodeword_bit_dataPos s.inBit hi
  have hwrong : v.outBit i ≠ s.inBit i := by
    rw [hmessage i x hi, Bool.xor_assoc, xor_of_three_flips (by omega) (by omega) hne hx]
    simp
  refine ⟨i / 8, by omega, fun hsame => hwrong ?_⟩
  simp only [State.outBit, State.inBit, streamBit, hsame]

/-- Settles O50: the two flips add up to the syndrome p xor q; up to n it is taken for a position and a third bit is flipped,
above n it is Unrepairable. -/
theorem decodeDoesNotDetectDoubleFlips : Obligations.DecodeDoesNotDetectDoubleFlips := by
  intro s t u p q hwf hfits henc hparams hlen hp hpq hqn hbits
  have hreceives : ReceivesCodeword s u fun x => decide (x = p) ^^ decide (x = q) :=
    receivesCodeword_of_enc hwf hfits henc hparams hlen (by simpa [Bool.xor_assoc] using hbits)
  rw [enc_outLen hwf hfits henc] at hqn ⊢
  have hsyn := hreceives.operandSyndrome_of_two_flips hp (by omega) hqn
  have hxor : p ^^^ q ≠ 0 := fun hzero => hpq.ne (Nat.xor_eq_zero_iff.mp hzero)
  rcases Nat.lt_or_ge (encodedLength (8 * s.operand)) (p ^^^ q) with habove | hlocated
  case inl =>
    obtain ⟨hcapacity, hne, hlength⟩ := hreceives.checks_passed hfits
    obtain ⟨v, hdec, hstatus, -, -, -, -, hsyndrome, -⟩ := decOfASyndromeAboveTheLength u hcapacity hne hlength
      (by rwa [hreceives.operand_eq, hsyn])
    rw [hsyn] at hsyndrome
    exact ⟨v, hdec, hsyndrome, hxor, fun hle => absurd hle (Nat.not_le_of_lt habove), fun _ => hstatus⟩
  case inr =>
    have hcompletes := hreceives.dec_completes hfits (hsyn ▸ hlocated)
    rw [hsyn, if_neg hxor] at hcompletes
    obtain ⟨v, hdec, hstatus, houtLen, -, -, -, hsyndrome, hflags, herrPos, hmessage⟩ := hcompletes
    have hwrong := exists_wrong_byte hp (by omega) hpq.ne (by omega) hqn hlocated hmessage
    exact ⟨v, hdec, hsyndrome, hxor,
      fun _ => ⟨hstatus, hflags, herrPos, houtLen.trans s.ofNat_operand, hwrong⟩,
      fun habove => absurd hlocated (Nat.not_le_of_lt habove)⟩

end Sys2Proof.Machine
end

