-- ==== Sys2Proof/Proofs/CommandFrames.lean ====
section
/-! What a completion leaves as it was, what it leaves in OUT_BUF, and what it depends on (40_command.md R65, R67, R69). -/

namespace Sys2Proof.Machine

open Sys2Proof.Config

/-- Settles O51: a command is one completion, and a completion writes STATUS, the results, OUT_BUF and L.valid. -/
theorem commandsLeaveEverythingElse : Obligations.CommandsLeaveEverythingElse := by
  intro i s
  obtain ⟨c, hexec⟩ := exec_completes i s
  exact ⟨_, hexec, rfl, rfl, s.complete_inFlight c, s.complete_params c, s.complete_cmd c, s.complete_inLen c,
    s.complete_inBuf c, s.complete_inEpoch c, congrFun (s.complete_inByte c), s.complete_pending c, s.complete_reply c⟩

/-! ### OUT_BUF -/

/-- Past the bytes written every byte is a free value (40_command.md R67). -/
theorem State.complete_outByte_of_length_le (s : State) {c : Completion} {bs : List Byte} (h : c.out = .bytes bs) {b : Nat}
    (hb : bs.length ≤ b) : (s.complete c).outByte b = freeOutByte s.draws b := by
  rw [s.complete_outByte_of_bytes h, List.getElem?_eq_none hb, Option.getD_none]

/-- DEC either rejects, or has a message of whole bytes to write, or fails and writes none (43_decode.md R105). -/
theorem decCompletion_out_cases (nMax n : Nat) (input : Nat → Bool) :
    decCompletion nMax n input = .reject .capacityExceeded
      ∨ ((decCompletion nMax n input).code = .ok ∧ n ≤ nMax
          ∧ ∃ bs, (decCompletion nMax n input).out = .bytes bs ∧ bs.length = (n - presentParityBits n) / 8)
      ∨ ((decCompletion nMax n input).code ≠ .capacityExceeded ∧ (decCompletion nMax n input).code ≠ .ok
          ∧ (decCompletion nMax n input).out = .bytes []) := by
  obtain ⟨-, hreject⟩ | ⟨-, -, hempty⟩ | ⟨-, -, -, hinvalid⟩ | ⟨hfits, hne, -, hlocated⟩ := decCompletion_cases nMax n input
  · exact .inl hreject
  · exact .inr (.inr (by simp [hempty, decDone]))
  · exact .inr (.inr (by simp [hinvalid, decDone]))
  · rw [hlocated]
    obtain ⟨-, hfails⟩ | ⟨-, -, hfails⟩ | ⟨-, haligned, hdone⟩ := decLocated_cases n (presentParityBits n)
      (n - presentParityBits n) (loadCodeword n input) (syndrome (loadCodeword n input) n (presentParityBits n))
    · exact .inr (.inr (by simp [hfails, decDone]))
    · exact .inr (.inr (by simp [hfails, decDone]))
    · rw [hdone]
      refine .inr (.inl ⟨rfl, hfits, _, rfl, ?_⟩)
      rw [packStream_length, extract_length, dataPos_length (by omega), bytesFor]
      omega

theorem enc_outBuf {s t : State} (henc : exec .enc s = .next t) :
    (t.status.code = .capacityExceeded → ∀ b, t.outByte b = s.outByte b)
      ∧ (t.status.code = .ok → ∀ b, bytesFor (8 * s.operand + requiredParityBits (8 * s.operand)) ≤ b →
          t.outByte b = freeOutByte s.draws b) := by
  cases henc
  obtain ⟨-, hreject⟩ | ⟨-, hcode, hout, -⟩ := encCompletion_cases s.params.kMax s.operand s.inBit
  · rw [hreject]
    exact ⟨fun _ => congrFun (s.complete_outByte_of_unchanged rfl), fun hok => (nomatch hok)⟩
  · refine ⟨fun hover => ?_, fun _ b hb => s.complete_outByte_of_length_le hout ?_⟩
    · rw [State.complete_status, hcode] at hover
      cases hover
    · rwa [packStream_length, encCodeword_length]

theorem dec_outBuf {s t : State} (hdec : exec .dec s = .next t) :
    (t.status.code = .capacityExceeded → ∀ b, t.outByte b = s.outByte b)
      ∧ (t.status.code = .ok → ∀ b, (s.operand - presentParityBits s.operand) / 8 ≤ b →
          t.outByte b = freeOutByte s.draws b)
      ∧ (t.status.code ≠ .capacityExceeded → t.status.code ≠ .ok → ∀ b, t.outByte b = freeOutByte s.draws b) := by
  cases hdec
  rw [State.complete_status]
  obtain hreject | ⟨hcode, -, bs, hout, hlen⟩ | ⟨hcapacity, hok, hout⟩ :=
    decCompletion_out_cases (instanceNMax s.params) s.operand s.inBit
  · rw [hreject]
    exact ⟨fun _ => congrFun (s.complete_outByte_of_unchanged rfl), fun h => (nomatch h), fun h => absurd rfl h⟩
  · exact ⟨fun h => (nomatch hcode.symm.trans h), fun _ b hb => s.complete_outByte_of_length_le hout (hlen ▸ hb),
      fun _ h => absurd hcode h⟩
  · exact ⟨fun h => absurd h hcapacity, fun h => absurd h hok,
      fun _ _ b => s.complete_outByte_of_length_le hout (Nat.zero_le b)⟩

/-- Settles O52: OUT_BUF by the completion of each command. -/
theorem outBufAtCompletion : Obligations.OutBufAtCompletion := by
  refine fun s => ⟨fun t hrpb => ?rpb, congrFun (s.complete_outByte_of_unchanged rfl), fun t => enc_outBuf,
    fun t => dec_outBuf⟩
  case rpb =>
    cases hrpb
    exact congrFun (s.complete_outByte_of_unchanged rfl)

/-! ### What a completion depends on -/

theorem encCompletion_congr (kMax : Nat) {k : Nat} {input input' : Nat → Bool}
    (h : ∀ j, j < 8 * k → input j = input' j) : encCompletion kMax k input = encCompletion kMax k input' := by
  simp only [encCompletion, encCodeword_congr h]

theorem decCompletion_congr (nMax : Nat) {n : Nat} {input input' : Nat → Bool} (h : ∀ j, j < n → input j = input' j) :
    decCompletion nMax n input = decCompletion nMax n input' := by
  simp only [decCompletion, decChecked, loadCodeword_congr h]

/-- The bytes a completion writes do not depend on the state it completes. -/
theorem State.complete_outByte_congr (s u : State) {c : Completion} {bs : List Byte} (h : c.out = .bytes bs) {b : Nat}
    (hb : b < bs.length) : (u.complete c).outByte b = (s.complete c).outByte b := by
  simp only [State.complete_outByte_of_bytes _ h, List.getElem?_eq_getElem hb, Option.getD_some]

theorem enc_outByte_congr {s u : State}
    (hok : (encCompletion s.params.kMax s.operand s.inBit).code = .ok) {b : Nat}
    (hb : b < bytesFor (8 * s.operand + requiredParityBits (8 * s.operand))) :
    (u.complete (encCompletion s.params.kMax s.operand s.inBit)).outByte b
      = (s.complete (encCompletion s.params.kMax s.operand s.inBit)).outByte b := by
  obtain ⟨-, hreject⟩ | ⟨-, -, hout, -⟩ := encCompletion_cases s.params.kMax s.operand s.inBit
  · rw [hreject] at hok
    cases hok
  · refine s.complete_outByte_congr u hout ?_
    rwa [packStream_length, encCodeword_length]

theorem dec_outByte_congr {s u : State}
    (hok : (decCompletion (instanceNMax s.params) s.operand s.inBit).code = .ok) {b : Nat}
    (hb : b < (s.operand - presentParityBits s.operand) / 8) :
    (u.complete (decCompletion (instanceNMax s.params) s.operand s.inBit)).outByte b
      = (s.complete (decCompletion (instanceNMax s.params) s.operand s.inBit)).outByte b := by
  obtain hreject | ⟨-, -, bs, hout, hlen⟩ | ⟨-, hfails, -⟩ :=
    decCompletion_out_cases (instanceNMax s.params) s.operand s.inBit
  · rw [hreject] at hok
    cases hok
  · exact s.complete_outByte_congr u hout (hlen ▸ hb)
  · exact absurd hok hfails

/-- Settles O53: on equal operands the two states complete by one and the same completion. -/
theorem completionDependsOnlyOnTheOperands : Obligations.CompletionDependsOnlyOnTheOperands := by
  intro i s u hparams hlen henc hdec
  have hoperand : u.operand = s.operand := congrArg BitVec.toNat hlen
  cases i with
  | rpb =>
    refine ⟨_, _, exec_rpb s, exec_rpb u, ?_⟩
    rw [hoperand]
    exact ⟨rfl, rfl, fun h => (nomatch h), fun h => (nomatch h)⟩
  | enc =>
    refine ⟨_, _, exec_enc s, exec_enc u, ?_⟩
    rw [hparams, hoperand, encCompletion_congr s.params.kMax (henc rfl)]
    exact ⟨rfl, rfl, fun _ hok _ => enc_outByte_congr hok, fun h => (nomatch h)⟩
  | dec =>
    refine ⟨_, _, exec_dec s, exec_dec u, ?_⟩
    rw [hparams, hoperand, decCompletion_congr (instanceNMax s.params) (hdec rfl)]
    exact ⟨rfl, rfl, fun h => (nomatch h), fun _ hok _ => dec_outByte_congr hok⟩

end Sys2Proof.Machine
end

