-- ==== Sys2Proof/Proofs/CommandEncoding.lean ====
section
/-! Encoder and decoder against each other (30_encoding.md R54, R57). -/

namespace Sys2Proof

/-- Settles O2: the words of R54 and of 95_test_vectors.md 2.6, decoded. -/
theorem sampleWordsDecodeAsTheTableSays : Obligations.SampleWordsDecodeAsTheTableSays := by
  unfold Obligations.SampleWordsDecodeAsTheTableSays
  decide

/-- Settles O4: a command's one word is its encoding. -/
theorem decodeUndoesEncode : Obligations.DecodeUndoesEncode := fun _ _ => decodeCmd_eq_command_iff.mpr rfl

/-- Settles O5: a command's one word is its encoding. -/
theorem encodeUndoesDecode : Obligations.EncodeUndoesDecode := fun _ _ hdecode =>
  (decodeCmd_eq_command_iff.mp hdecode).symm

end Sys2Proof
end

