-- ==== Sys2Proof/Proofs/BlockTurn.lean ====
section
/-! The block's turn (40_command.md R61, R64): the completion of the command in flight, or nothing. -/

namespace Sys2Proof.Machine

theorem step_of_blockMoves {s : State} (h : s.blockMoves) : step s = s.takeEvent.blockTurn := by
  rcases h with hblock | hempty
  · obtain ⟨rest, hpending⟩ := List.head?_eq_some_iff.mp hblock
    simp only [step, hpending]
  · simp only [step, hempty]

/-- With a command in flight the turn is its completion (40_command.md R64). -/
theorem step_of_completion_turn {s : State} (h : s.blockMoves) (hvalid : s.inFlight.valid = true) :
    step s = s.takeEvent.runCommand := by
  rw [step_of_blockMoves h]
  exact if_pos hvalid

/-- What the completion step writes (40_command.md R64, 30_encoding.md R57): by the command in flight, or the rejection of
an illegal word. -/
def State.completion (s : State) : Completion :=
  match s.decoded with
  | .command .rpb => rpbCompletion s.operand
  | .command .enc => encCompletion s.params.kMax s.operand s.inBit
  | .command .dec => decCompletion (instanceNMax s.params) s.operand s.inBit
  | .illegal _ => .reject .illegalCommand

theorem State.runCommand_eq_complete (s : State) : s.runCommand = .next (s.complete s.completion) := by
  unfold State.completion
  obtain ⟨hdecoded, hrun⟩ | ⟨hdecoded, hrun⟩ | ⟨hdecoded, hrun⟩ | ⟨why, hdecoded, hrun⟩ := s.runCommand_cases <;>
    rw [hrun, hdecoded]

theorem step_eq_complete {s : State} (h : s.blockMoves) (hvalid : s.inFlight.valid = true) :
    step s = .next (s.takeEvent.complete s.completion) := by
  rw [step_of_completion_turn h hvalid, State.runCommand_eq_complete]
  rfl

/-- Settles O6: the completion step runs the decoded command on the state whose event has been taken. -/
theorem stepRunsTheDecodedCommand : Obligations.StepRunsTheDecodedCommand := by
  intro s i hturn hvalid hdecode _
  have hdecoded : s.takeEvent.decoded = .command i := hdecode
  rw [step_of_completion_turn hturn hvalid, State.runCommand, hdecoded]
  rfl

/-- Settles O7: the completion step of an illegal word is a rejection, and a rejection leaves everything but STATUS, the
results and L.valid. -/
theorem illegalWordCompletesByRejection : Obligations.IllegalWordCompletesByRejection := by
  intro s why hturn hvalid hdecode
  have hreject : step s = .next (s.takeEvent.complete (.reject .illegalCommand)) := by
    have hcompletion : s.completion = .reject .illegalCommand := by
      rw [State.completion, State.decoded, hdecode]
    rw [step_eq_complete hturn hvalid, hcompletion]
  refine completes_imp (completes_of_reject hreject (by decide)) fun t hstep ⟨houtBuf, _⟩ => ?_
  cases hreject.symm.trans hstep
  exact ⟨houtBuf, rfl, rfl, rfl, rfl, rfl⟩

/-- Settles O8: with no command in flight the turn passes. -/
theorem idleBlockChangesNothing : Obligations.IdleBlockChangesNothing := by
  intro s hturn hidle
  rw [step_of_blockMoves hturn]
  exact if_neg (by simpa using hidle)

end Sys2Proof.Machine
end

