-- ==== Sys2Proof/Proofs/BusReads.lean ====
section
/-! What the bus answers to a legal read (20_memory.md R40, R43), while BUSY = 0 and while BUSY = 1. -/

namespace Sys2Proof.Machine

open Sys2Proof.Config

/-! ### The address map -/

/-- What an offset names is one of four kinds (20_memory.md R44). -/
theorem target_cases (off : Nat) :
    (∃ b, off = 0x1000 + b ∧ b < 0x1000 ∧ target off = .inBuf b)
      ∨ (∃ b, off = 0x2000 + b ∧ b < 0x1000 ∧ target off = .outBuf b)
      ∨ (∃ r : Reg, off = r.offset ∧ target off = .reg r)
      ∨ target off = .reserved := by
  by_cases hin : 0x1000 ≤ off ∧ off < 0x2000
  · exact .inl ⟨off - 0x1000, by omega, by omega, target_of_inBuf_window hin⟩
  by_cases hout : 0x2000 ≤ off ∧ off < 0x3000
  · exact .inr (.inl ⟨off - 0x2000, by omega, by omega, target_of_outBuf_window hout⟩)
  by_cases hreg : ∃ r : Reg, r.offset = off
  · obtain ⟨r, rfl⟩ := hreg
    exact .inr (.inr (.inl ⟨r, rfl, target_regOffset r⟩))
  · exact .inr (.inr (.inr (target_of_no_register (by omega) (not_exists.mp hreg))))

theorem target_inBuf {b : Nat} (hb : b < 0x1000) : target (0x1000 + b) = .inBuf b := by
  rw [target_of_inBuf_window (by omega), Nat.add_sub_cancel_left]

theorem target_outBuf {b : Nat} (hb : b < 0x1000) : target (0x2000 + b) = .outBuf b := by
  rw [target_of_outBuf_window (by omega), Nat.add_sub_cancel_left]

/-- Every byte of the two buffer windows may be accessed with 8 bits (20_memory.md R42). -/
theorem legalAccess_byte {off : Nat} (hoff : 0x1000 ≤ off ∧ off < 0x3000) : legalAccess off 1 = true :=
  (legalAccess_iff off 1).mpr (.inl ⟨hoff.1, hoff.2, rfl⟩)

theorem step_of_reg_read {s : State} (r : Reg) (h : s.hostMoves (.read (s.params.base + r.offset) 4)) :
    step s = .next (s.takeEvent.readTarget (.reg r)) := by
  rw [step_of_legal_read (r.offset_lt.trans (by decide)) (legalAccess_regOffset r) h, target_regOffset]

theorem step_of_inBuf_read {s : State} {b : Nat} (hb : b < 0x1000)
    (h : s.hostMoves (.read (s.params.base + 0x1000 + b) 1)) : step s = .next (s.takeEvent.readTarget (.inBuf b)) := by
  rw [Nat.add_assoc] at h
  rw [step_of_legal_read (by omega) (legalAccess_byte (by omega)) h, target_inBuf hb]

theorem step_of_outBuf_read {s : State} {b : Nat} (hb : b < 0x1000)
    (h : s.hostMoves (.read (s.params.base + 0x2000 + b) 1)) : step s = .next (s.takeEvent.readTarget (.outBuf b)) := by
  rw [Nat.add_assoc] at h
  rw [step_of_legal_read (by omega) (legalAccess_byte (by omega)) h, target_outBuf hb]

/-! ### The two kinds of answers -/

/-- What a read answers where no free value of 10_state.md R35 stands in (20_memory.md R40). -/
def State.answer (s : State) : Target → Reply
  | .reg r => .word (s.regValue r)
  | .reserved => .word 0
  | .inBuf b => .byte (if b < instanceBufBytes s.params then s.inByte b else 0)
  | .outBuf b => .byte (if b < instanceBufBytes s.params then s.outByte b else 0)

/-- What 10_state.md R35 leaves open while BUSY = 1: the result registers and OUT_BUF[b < BUF_BYTES]. -/
def Target.openWhileBusy (p : Params) : Target → Bool
  | .reg r => r.isResult
  | .outBuf b => b < instanceBufBytes p
  | .reserved | .inBuf _ => false

/-- Anything else, and everything while BUSY = 0, is read as it stands, and the read changes nothing but the reply. -/
theorem readTarget_eq_answer {s : State} {tg : Target}
    (h : s.status.busy = false ∨ tg.openWhileBusy s.params = false) :
    s.readTarget tg = { s with reply := s.answer tg } := by
  cases tg with
  | reg r =>
    have hclosed : (s.status.busy && r.isResult) = false := Bool.and_eq_false_iff.mpr h
    simp only [State.readTarget, hclosed, Bool.false_eq_true, if_false]
    rfl
  | reserved => rfl
  | inBuf b => rfl
  | outBuf b =>
    by_cases hb : b < instanceBufBytes s.params
    · have hidle : s.status.busy = false := by simpa [Target.openWhileBusy, hb] using h
      simp [State.readTarget, State.answer, hb, hidle, State.replyByte]
    · simp [State.readTarget, State.answer, hb, State.replyByte]

/-- The answer does not depend on the model's own fields. -/
theorem answer_with_reply (s : State) (pending : List Event) (reply : Reply) (tg : Target) :
    State.answer { s with pending := pending, reply := reply } tg = s.answer tg := by
  cases tg with
  | reg r => cases r <;> rfl
  | reserved | inBuf b | outBuf b => rfl

theorem takeEvent_readTarget_eq_answer {s : State} {tg : Target}
    (h : s.status.busy = false ∨ tg.openWhileBusy s.params = false) :
    s.takeEvent.readTarget tg = { s with pending := s.pending.tail, reply := s.answer tg } := by
  rw [← answer_with_reply s s.pending.tail .nothing]
  exact readTarget_eq_answer (s := s.takeEvent) h

theorem readTarget_reg_of_busy {s : State} {r : Reg} (hbusy : s.status.busy = true) (hresult : r.isResult = true) :
    s.readTarget (.reg r) = s.drawWord r.openBits := by
  simp [State.readTarget, hbusy, hresult]

theorem readTarget_outBuf_of_busy {s : State} {b : Nat} (hbusy : s.status.busy = true)
    (hb : b < instanceBufBytes s.params) : s.readTarget (.outBuf b) = s.drawByte := by
  simp [State.readTarget, hbusy, hb]

theorem readTarget_reply_ne_nothing (s : State) (tg : Target) : (s.readTarget tg).reply ≠ .nothing := by
  cases tg with
  | reg r =>
    rw [State.readTarget]
    split_ifs <;> simp
  | reserved | inBuf b => simp [State.readTarget]
  | outBuf b =>
    rw [State.readTarget]
    split_ifs <;> simp

/-- Settles O12: the read reaches the block, and each of its answers is one. -/
theorem everyLegalReadIsPerformed : Obligations.EveryLegalReadIsPerformed := by
  intro s off width hoff hclauses hread
  exact ⟨_, step_of_legal_read hoff ((legalAccess_iff off width).mpr hclauses) hread, readTarget_reply_ne_nothing _ _⟩

/-- Settles O17: a read writes the reply and takes at most a draw. -/
theorem readsChangeNoStateOfTheBlock : Obligations.ReadsChangeNoStateOfTheBlock := by
  intro s t addr width hread hstep
  rw [step_of_hostMoves hread] at hstep
  obtain ⟨-, -, rfl⟩ := State.busRead_next hstep
  obtain ⟨reply, draws, hframe, -⟩ := s.takeEvent.readTarget_frame (target (addr - s.takeEvent.params.base))
  rw [hframe]
  rfl

/-! ### Registers -/

/-- PARAM is one number, since both halves fit in a legal instance (10_state.md R17). -/
theorem paramWord_eq {p : Params} (hwf : p.wf = true) :
    paramWord p = BitVec.ofNat 32 (nMaxOf p.kMax * 2 ^ 16 + p.kMax) := by
  have hnMax := nMaxOf_lt_of_wf hwf
  have hkMax : p.kMax ≤ nMaxOf p.kMax := by
    unfold nMaxOf
    omega
  have hlow : p.kMax < 2 ^ 16 := by omega
  refine BitVec.eq_of_toNat_eq ?_
  rw [paramWord, BitVec.toNat_append, BitVec.toNat_ofNat, BitVec.toNat_ofNat, BitVec.toNat_ofNat, Nat.mod_eq_of_lt hlow,
    ← Nat.shiftLeft_add_eq_or_of_lt hlow, Nat.shiftLeft_eq]
  unfold instanceNMax
  omega

theorem Status.word_of_idle {st : Status} (hidle : st.busy = false) :
    st.word = BitVec.ofNat 32 (st.code.value.toNat * 16 + if st.done then 2 else 0) := by
  obtain ⟨busy, done, code⟩ := st
  obtain rfl : busy = false := hidle
  cases done <;> cases code <;> decide

/-- While BUSY = 0, and for ID, PARAM, CMD, STATUS and IN_LEN always, a read returns the register (20_memory.md R40). -/
theorem step_of_closed_reg_read {s : State} (r : Reg) (h : s.status.busy = false ∨ r.isResult = false)
    (hread : s.hostMoves (.read (s.params.base + r.offset) 4)) :
    step s = .next { s with pending := s.pending.tail, reply := .word (s.regValue r) } := by
  rw [step_of_reg_read r hread, takeEvent_readTarget_eq_answer h]
  rfl

/-- Settles O13: the twelve registers by their offsets. -/
theorem registerReadsFollowTheMap : Obligations.RegisterReadsFollowTheMap := by
  intro s off v hwf hopen hread hmem
  suffices hreg : ∃ r : Reg, off = r.offset ∧ v = s.regValue r ∧ (s.status.busy = false ∨ r.isResult = false) by
    obtain ⟨r, rfl, rfl, hclosed⟩ := hreg
    exact step_of_closed_reg_read r hclosed hread
  simp only [List.mem_cons, List.not_mem_nil, or_false, Prod.mk.injEq] at hopen hmem
  rcases hmem with ⟨rfl, rfl⟩ | ⟨rfl, rfl⟩ | ⟨rfl, rfl⟩ | ⟨rfl, rfl⟩ | ⟨rfl, rfl⟩ | ⟨rfl, rfl⟩ | ⟨rfl, rfl⟩ | ⟨rfl, rfl⟩
    | ⟨rfl, rfl⟩ | ⟨rfl, rfl⟩ | ⟨rfl, rfl⟩ | ⟨rfl, rfl⟩
  · exact ⟨.id, rfl, rfl, .inr rfl⟩
  · exact ⟨.param, rfl, (paramWord_eq hwf).symm, .inr rfl⟩
  · exact ⟨.cmd, rfl, rfl, .inr rfl⟩
  · exact ⟨.status, rfl, (Status.word_of_idle (by simpa using hopen)).symm, .inr rfl⟩
  · exact ⟨.inLen, rfl, rfl, .inr rfl⟩
  · exact ⟨.outLen, rfl, rfl, .inl (by simpa using hopen)⟩
  · exact ⟨.resR, rfl, rfl, .inl (by simpa using hopen)⟩
  · exact ⟨.resM, rfl, rfl, .inl (by simpa using hopen)⟩
  · exact ⟨.resN, rfl, rfl, .inl (by simpa using hopen)⟩
  · exact ⟨.syndrome, rfl, rfl, .inl (by simpa using hopen)⟩
  · exact ⟨.flags, rfl, rfl, .inl (by simpa using hopen)⟩
  · exact ⟨.errPos, rfl, rfl, .inl (by simpa using hopen)⟩

/-! ### Buffers -/

/-- Settles O15: a buffer byte is read as it stands, and beyond BUF_BYTES nothing is open. -/
theorem bufferReadsGiveTheByte : Obligations.BufferReadsGiveTheByte := by
  refine fun s b hb => ⟨fun hread => ?inBuf, fun hread hclosed => ?outBuf⟩
  case inBuf =>
    rw [step_of_inBuf_read hb hread]
    rfl
  case outBuf =>
    have hopen : s.status.busy = false ∨ (Target.outBuf b).openWhileBusy s.params = false :=
      hclosed.imp_right fun hle => decide_eq_false (Nat.not_lt_of_le hle)
    rw [step_of_outBuf_read hb hread, takeEvent_readTarget_eq_answer hopen]
    rfl

/-- Settles O16: each of these reads is a draw. -/
theorem busyReadsReturnFreshFreeValues : Obligations.BusyReadsReturnFreshFreeValues := by
  refine fun s hbusy => ⟨fun off openBits hmem hread => ?results, fun b hb hwindow hread => ?outBuf⟩
  case results =>
    suffices hreg : ∃ r : Reg, r.isResult = true ∧ off = r.offset ∧ openBits = r.openBits by
      obtain ⟨r, hresult, rfl, rfl⟩ := hreg
      rw [step_of_reg_read r hread, readTarget_reg_of_busy (s := s.takeEvent) hbusy hresult]
      rfl
    simp only [List.mem_cons, List.not_mem_nil, or_false, Prod.mk.injEq] at hmem
    rcases hmem with h | h | h | h | h | h | h
    · exact ⟨.outLen, rfl, h⟩
    · exact ⟨.resR, rfl, h⟩
    · exact ⟨.resM, rfl, h⟩
    · exact ⟨.resN, rfl, h⟩
    · exact ⟨.syndrome, rfl, h⟩
    · exact ⟨.flags, rfl, h⟩
    · exact ⟨.errPos, rfl, h⟩
  case outBuf =>
    rw [step_of_outBuf_read hwindow hread, readTarget_outBuf_of_busy (s := s.takeEvent) hbusy hb]
    rfl

/-! ### The same read again -/

/-- What is open while BUSY = 1, by its offset (10_state.md R35). -/
theorem openWhileBusy_target (p : Params) (off : Nat)
    (hclosed : off ∉ [0x0014, 0x0018, 0x001C, 0x0020, 0x0024, 0x0028, 0x002C]
      ∧ ¬(0x2000 ≤ off ∧ off < 0x3000 ∧ off < 0x2000 + instanceBufBytes p)) :
    (target off).openWhileBusy p = false := by
  obtain ⟨hregs, hout⟩ := hclosed
  obtain ⟨b, -, -, htarget⟩ | ⟨b, rfl, hb, htarget⟩ | ⟨r, rfl, htarget⟩ | htarget := target_cases off <;> rw [htarget]
  · rfl
  · exact decide_eq_false (by omega)
  · cases r with
    | id | param | cmd | status | inLen => rfl
    | outLen | resR | resM | resN | syndrome | flags | errPos => exact absurd (by decide) hregs
  · rfl

/-- What a read that finds nothing open does, wherever it goes. -/
theorem eq_answer_of_read {s t : State} {addr width : Nat} (hread : s.hostMoves (.read addr width))
    (hstep : step s = .next t)
    (hclosed : s.status.busy = false ∨ (target (addr - s.params.base)).openWhileBusy s.params = false) :
    t = { s with pending := s.pending.tail, reply := s.answer (target (addr - s.params.base)) } := by
  rw [step_of_hostMoves hread] at hstep
  obtain ⟨-, -, ht⟩ := State.busRead_next hstep
  exact ht.trans (takeEvent_readTarget_eq_answer hclosed)

theorem base_le_of_read {s t : State} {addr width : Nat} (hread : s.hostMoves (.read addr width))
    (hstep : step s = .next t) : s.params.base ≤ addr := by
  rw [step_of_hostMoves hread] at hstep
  obtain ⟨hwindow, -, -⟩ := State.busRead_next hstep
  simp only [inWindow, Bool.and_eq_true, decide_eq_true_eq] at hwindow
  exact hwindow.1

/-- Settles O18: neither read finds an open value, so both are answered from the same state of the block. -/
theorem readsAreIdempotent : Obligations.ReadsAreIdempotent := by
  intro s t u addr width later hclosed hpending hstep hstep'
  have hread : s.hostMoves (.read addr width) := by rw [State.hostMoves, hpending, List.head?_cons]
  have hopen : s.status.busy = false ∨ (target (addr - s.params.base)).openWhileBusy s.params = false :=
    hclosed.imp_right fun h =>
      openWhileBusy_target s.params _ (h _ (Nat.add_sub_cancel' (base_le_of_read hread hstep)).symm)
  obtain rfl := eq_answer_of_read hread hstep hopen
  have hread' : State.hostMoves { s with pending := s.pending.tail, reply := s.answer (target (addr - s.params.base)) }
      (.read addr width) := by
    rw [State.hostMoves, hpending, List.tail_cons, List.head?_cons]
  obtain rfl := eq_answer_of_read hread' hstep' hopen
  rw [answer_with_reply, hpending]
  exact ⟨rfl, rfl⟩

end Sys2Proof.Machine
end

