-- ==== Sys2Proof/Proofs/BusWrites.lean ====
section
/-! What a legal write changes (20_memory.md R41): the operand it names, or nothing. -/

namespace Sys2Proof.Machine

theorem writeTarget_of_not_operand {s : State} {tg : Target} (h : isOperandTarget s.params tg = false) (v : Word) :
    s.writeTarget v tg = s := by
  obtain ⟨rfl, -⟩ | ⟨rfl, -⟩ | ⟨b, rfl, hb, -⟩ | ⟨-, hsame⟩ := s.writeTarget_cases v tg
  · cases h
  · cases h
  · exact absurd hb (of_decide_eq_false h)
  · exact hsame

/-- Settles O19: these offsets name no operand, so the write is no hazard either. -/
theorem otherWritesAreIgnored : Obligations.OtherWritesAreIgnored := by
  intro s off width v hoff hclauses hcmd hinLen hinBuf hwrite
  have hnone : isOperandTarget s.params (target off) = false := by
    rw [← Bool.not_eq_true, isOperandTarget_target_iff]
    rintro (h | h | h)
    · exact hcmd h
    · exact hinLen h
    · exact hinBuf h
  have hsafe : ¬(s.status.busy = true ∧ isOperandTarget s.params (target off) = true) := by simp [hnone]
  rw [step_of_legal_write hoff ((legalAccess_iff off width).mpr hclauses) hsafe hwrite,
    writeTarget_of_not_operand (s := s.takeEvent) hnone]
  rfl

/-- Settles O21: 0x0010 is the offset of IN_LEN. -/
theorem inLenWriteIsStored : Obligations.InLenWriteIsStored := by
  intro s v hidle hwrite
  have hstore : step s = .next (s.takeEvent.writeTarget v (.reg .inLen)) :=
    step_of_idle_reg_write (r := .inLen) hidle hwrite
  rw [hstore]
  rfl

/-- What IN_BUF holds after one byte has been stored (10_state.md R30). -/
theorem State.inByte_write (s : State) (b c : Nat) (v : Byte) :
    State.inByte { s with inBuf := s.inBuf.write b v } c = if c = b then v else s.inByte c := by
  simp only [State.inByte, Memory.read_write]
  split_ifs <;> rfl

theorem writeTarget_inBuf {s : State} {b : Nat} (hb : b < instanceBufBytes s.params) (v : Word) :
    s.writeTarget v (.inBuf b) = { s with inBuf := s.inBuf.write b (v.extractLsb' 0 8) } :=
  if_pos hb

/-- Settles O22: the write stores one byte of the list, and every other index is read as before. -/
theorem inBufWriteStoresOneByte : Obligations.InBufWriteStoresOneByte := by
  intro s b v hidle hb hwindow hwrite
  rw [Nat.add_assoc] at hwrite
  have hsafe : ¬(s.status.busy = true ∧ isOperandTarget s.params (target (0x1000 + b)) = true) := by simp [hidle]
  have hstore := step_of_legal_write (by omega) (legalAccess_byte (by omega)) hsafe hwrite
  rw [target_inBuf hwindow, writeTarget_inBuf (s := s.takeEvent) hb] at hstore
  refine ⟨_, hstore, rfl, ?written, fun c hc => ?other⟩
  case written => rw [State.inByte_write, if_pos rfl]
  case other =>
    rw [State.inByte_write, if_neg hc]
    rfl

end Sys2Proof.Machine
end

