-- ==== Sys2Proof/Proofs/Polling.lean ====
section
/-! Polls of STATUS while a command is in flight, and the completion between them (40_command.md R68, 30_encoding.md R59). -/

namespace Sys2Proof.Machine

/-- A poll answers STATUS, busy or not, since STATUS is no result register (10_state.md R35). -/
theorem step_of_poll {s : State} (h : s.hostMoves (.read (s.params.base + Reg.status.offset) 4)) :
    step s = .next { s with pending := s.pending.tail, reply := .word s.status.word } :=
  step_of_closed_reg_read .status (.inr rfl) h

/-- STATUS of a busy block has no other bit set (10_state.md R19). -/
theorem State.Inv.status_of_busy {s : State} (hInv : s.Inv) (hbusy : s.status.busy = true) :
    s.status = { busy := true, done := false, code := .ok } := by
  have hdone : s.status.done = false := Bool.eq_false_iff.mpr fun hdone => hInv.busy_not_done ⟨hbusy, hdone⟩
  have hcode : s.status.code = .ok := hInv.code_when_not_done hdone
  rw [← hbusy, ← hdone, ← hcode]

/-- Settles O10: BUSY = 1 leaves DONE and CODE at 0. -/
theorem pollOfABusyBlockReadsOne : Obligations.PollOfABusyBlockReadsOne := by
  intro s hInv hbusy hread
  rw [step_of_poll hread]
  have hword : s.status.word = 0x00000001#32 := regValue_status_of_accepted (hInv.status_of_busy hbusy)
  rw [hword]

theorem run_succ_of_step {s t : State} (h : step s = .next t) (k : Nat) :
    Host.Core.run core (k + 1) s = Host.Core.run core k t := by
  have hcore : core.step s = .next t := h
  simp only [Host.Core.run, hcore]

/-- The end of a POLL: the completion and the read that finds DONE. -/
theorem run_poll_zero {s : State} (hvalid : s.inFlight.valid = true) (hpending : s.pending = poll s.params 0) :
    ∃ t, Host.Core.run core 2 s = .next t ∧ t.status.busy = false ∧ t.status.done = true
      ∧ t.inFlight.valid = false ∧ t.pending = [] ∧ t.reply = .word t.status.word := by
  have hcomplete := step_eq_complete (.inl (by rw [hpending]; rfl)) hvalid
  have htail : (s.takeEvent.complete s.completion).pending = [rd32 s.params Reg.status.offset] := by
    rw [State.complete_pending, State.takeEvent_pending, hpending]
    rfl
  have hread : (s.takeEvent.complete s.completion).hostMoves
      (.read ((s.takeEvent.complete s.completion).params.base + Reg.status.offset) 4) := by
    rw [State.hostMoves, htail, State.complete_params]
    rfl
  refine ⟨_, (run_succ_of_step hcomplete 1).trans (run_succ_of_step (step_of_poll hread) 0), rfl, rfl, ?_, ?_, rfl⟩
  · rw [State.complete_inFlight]
  · rw [htail, List.tail_cons]

/-- The busy reads take their turns and leave the rest of the POLL. -/
theorem run_poll {s : State} {busyReads : Nat} (hvalid : s.inFlight.valid = true)
    (hpending : s.pending = poll s.params busyReads) :
    ∃ t, Host.Core.run core (busyReads + 2) s = .next t ∧ t.status.busy = false ∧ t.status.done = true
      ∧ t.inFlight.valid = false ∧ t.pending = [] ∧ t.reply = .word t.status.word := by
  induction busyReads generalizing s with
  | zero => exact run_poll_zero hvalid hpending
  | succ busyReads ih =>
    have hcons : s.pending = rd32 s.params Reg.status.offset :: poll s.params busyReads := hpending
    have hstep := step_of_poll (s := s) (by rw [State.hostMoves, hcons]; rfl)
    rw [hcons, List.tail_cons] at hstep
    rw [Nat.succ_add_eq_add_succ, run_succ_of_step hstep]
    exact ih hvalid rfl

/-- Settles O9: the polls before find the block busy, and the turn between completes the command. -/
theorem busyBlockCompletesAfterAnyNumberOfPolls : Obligations.BusyBlockCompletesAfterAnyNumberOfPolls :=
  fun _ _ hInv hbusy hpending => run_poll (hInv.busy_is_valid ▸ hbusy) hpending

end Sys2Proof.Machine
end

