-- ==== Sys2Proof/Proofs/ResetState.lean ====
section
/-! The state after reset and the reset input (70_reset_and_hazards.md R128 to R130). -/

namespace Sys2Proof.Machine

/-- The registers with storage after reset (70_reset_and_hazards.md R129). -/
theorem resetWith_regValue (p : Config.Params) {r : Reg} (hid : r ≠ .id) (hparam : r ≠ .param) :
    (State.resetWith p).regValue r = 0 := by
  cases r with
  | id => exact absurd rfl hid
  | param => exact absurd rfl hparam
  | cmd | inLen | outLen | resR | resM | resN | syndrome | errPos => rfl
  | status => exact (by decide : (⟨false, false, .ok⟩ : Status).word = 0)
  | flags => exact (by decide : Flags.none.word = 0)

/-- Settles O25: ID and PARAM are computed, and every register with storage is 0. -/
theorem registersAfterReset : Obligations.RegistersAfterReset := fun p hwf =>
  ⟨rfl, paramWord_eq hwf, fun _ => resetWith_regValue p, rfl⟩

theorem step_of_resetMoves {s : State} (h : s.resetMoves) : step s = .next s.takeEvent.assertReset := by
  obtain ⟨rest, hpending⟩ := List.head?_eq_some_iff.mp h
  simp only [step, hpending]

/-- Settles O26: the reset input writes every field but the instance and the schedule, whatever state it finds. -/
theorem resetInputRestoresTheResetState : Obligations.ResetInputRestoresTheResetState := by
  intro s hreset
  refine ⟨_, step_of_resetMoves hreset, rfl, fun r => ?registers, rfl, rfl, fun b => rfl, fun b => rfl, rfl⟩
  case registers => cases r <;> rfl

/-- Settles O60: nothing is in flight, nothing is listed and every result is 0. -/
theorem resetStateMeetsTheInvariant : Obligations.ResetStateMeetsTheInvariant := by
  intro p hwf
  constructor
  case params_legal => exact hwf
  case in_canonical | out_canonical => exact Memory.nil_wf
  case in_within | out_within => exact Memory.nil_below _
  all_goals simp [State.resetWith, Results.zero, Flags.none]

end Sys2Proof.Machine
end

