-- ==== Sys2Proof/Proofs/StepEffects.lean ====
section
/-! Everything one step can change, as six named effects, and the rules of 10_state.md and 40_command.md that say when a
part of the state changes. -/

namespace Sys2Proof.Machine

theorem offset_of_target_reg {off : Nat} {r : Reg} (h : target off = .reg r) : off = r.offset := by
  obtain ⟨b, -, -, htarget⟩ | ⟨b, -, -, htarget⟩ | ⟨r', hoff, htarget⟩ | htarget := target_cases off <;>
    cases htarget.symm.trans h
  exact hoff

theorem offset_of_target_inBuf {off b : Nat} (h : target off = .inBuf b) : off = 0x1000 + b ∧ b < 0x1000 := by
  obtain ⟨b', hoff, hb, htarget⟩ | ⟨b', -, -, htarget⟩ | ⟨r, -, htarget⟩ | htarget := target_cases off <;>
    cases htarget.symm.trans h
  exact ⟨hoff, hb⟩

/-- What a step that answers a next state does. -/
inductive StepEffect (s : State) : State → Prop where
  /-- The block completes the command in flight. -/
  | completed (hturn : s.blockMoves) (hvalid : s.inFlight.valid = true) :
      StepEffect s (s.takeEvent.complete s.completion)
  /-- A turn of an idle block, a read, or a write that is ignored: only the model's own fields change. -/
  | kept (reply : Reply) (draws : Nat) (hdraws : s.draws ≤ draws) :
      StepEffect s { s with pending := s.pending.tail, reply := reply, draws := draws }
  /-- The host writes CMD. -/
  | accepted (v : Word) (hwrite : s.hostMoves (.write (s.params.base + 0x0008) 4 v)) :
      StepEffect s (s.takeEvent.accept v)
  /-- The host writes IN_LEN. -/
  | inLenStored (v : Word) : StepEffect s { s.takeEvent with inLen := v }
  /-- The host writes a byte of IN_BUF. -/
  | inByteStored (b : Nat) (v : Word) (hwrite : s.hostMoves (.write (s.params.base + 0x1000 + b) 1 v))
      (hidle : s.status.busy = false) (hb : b < instanceBufBytes s.params) :
      StepEffect s { s.takeEvent with inBuf := s.inBuf.write b (v.extractLsb' 0 8) }
  /-- The reset input is asserted. -/
  | reset (hreset : s.resetMoves) : StepEffect s s.takeEvent.assertReset

theorem stepEffect_of_blockTurn {s t : State} (hturn : s.blockMoves) (h : s.takeEvent.blockTurn = .next t) :
    StepEffect s t := by
  obtain ⟨hvalid, -⟩ | ⟨-, rfl⟩ := State.blockTurn_cases h
  · rw [← step_of_blockMoves hturn, step_eq_complete hturn hvalid] at h
    cases h
    exact .completed hturn hvalid
  · exact .kept .nothing s.draws le_rfl

theorem stepEffect_of_busRead {s t : State} {addr width : Nat} (h : s.takeEvent.busRead addr width = .next t) :
    StepEffect s t := by
  obtain ⟨-, -, rfl⟩ := State.busRead_next h
  obtain ⟨reply, draws, hframe, hdraws⟩ := s.takeEvent.readTarget_frame (target (addr - s.takeEvent.params.base))
  rw [hframe]
  exact .kept reply draws hdraws

theorem stepEffect_of_busWrite {s t : State} {addr width : Nat} {v : Word} (hmoves : s.hostMoves (.write addr width v))
    (h : s.takeEvent.busWrite addr width v = .next t) : StepEffect s t := by
  obtain ⟨hwindow, hlegal, hsafe, rfl⟩ := State.busWrite_next h
  simp only [State.takeEvent_params, State.takeEvent_status] at hwindow hlegal hsafe ⊢
  obtain ⟨off, rfl⟩ : ∃ off, addr = s.params.base + off := by
    simp only [inWindow, Bool.and_eq_true, decide_eq_true_eq] at hwindow
    exact Nat.exists_eq_add_of_le hwindow.1
  rw [Nat.add_sub_cancel_left] at hlegal hsafe ⊢
  rw [legalAccess_iff] at hlegal
  obtain ⟨htarget, hwrite⟩ | ⟨-, hwrite⟩ | ⟨b, htarget, hb, hwrite⟩ | ⟨-, hwrite⟩ :=
    s.takeEvent.writeTarget_cases v (target off) <;> rw [hwrite]
  · obtain rfl : off = 0x0008 := offset_of_target_reg htarget
    obtain rfl : width = 4 := by omega
    exact .accepted v hmoves
  · exact .inLenStored v
  · obtain ⟨rfl, hb'⟩ := offset_of_target_inBuf htarget
    obtain rfl : width = 1 := by omega
    have hidle : s.status.busy = false := Bool.eq_false_iff.mpr fun hbusy =>
      hsafe ⟨hbusy, by rw [htarget]; exact decide_eq_true hb⟩
    exact .inByteStored b v (by rwa [Nat.add_assoc]) hidle hb
  · exact .kept .nothing s.draws le_rfl

theorem stepEffect_of_step {s t : State} (h : step s = .next t) : StepEffect s t := by
  obtain ⟨hturn, hblock⟩ | ⟨addr, width, -, hread⟩ | ⟨addr, width, v, hmoves, hwrite⟩ | ⟨hreset, rfl⟩ := step_cases h
  · exact stepEffect_of_blockTurn hturn.symm hblock
  · exact stepEffect_of_busRead hread
  · exact stepEffect_of_busWrite hmoves hwrite
  · exact .reset hreset

/-! ### When a part of the state changes -/

theorem StepEffect.params_eq {s t : State} (h : StepEffect s t) : t.params = s.params := by
  cases h with
  | completed => rw [State.complete_params, State.takeEvent_params]
  | kept | accepted | inLenStored | inByteStored | reset => rfl

/-- Settles O58: ID has no storage, and PARAM is computed from the instance, which no effect touches. -/
theorem idAndParamNeverChange : Obligations.IdAndParamNeverChange := by
  intro s t hstep
  have hparams := (stepEffect_of_step hstep).params_eq
  exact ⟨hparams, rfl, congrArg paramWord hparams⟩

/-- Settles O55: of the six effects only a completion and a reset touch the results. -/
theorem resultsChangeOnlyAtCompletionOrReset : Obligations.ResultsChangeOnlyAtCompletionOrReset := by
  intro s t hstep hchanged
  cases stepEffect_of_step hstep with
  | completed hturn hvalid => exact .inl ⟨hturn, hvalid, rfl⟩
  | reset hreset => exact .inr hreset
  | kept | accepted | inLenStored | inByteStored => exact absurd rfl hchanged

/-- Settles O57: of the six effects only a host write to IN_BUF and a reset touch IN_BUF, and the write only one byte. -/
theorem inBufChangesOnlyByHostWriteOrReset : Obligations.InBufChangesOnlyByHostWriteOrReset := by
  intro s t b hstep hchanged
  cases stepEffect_of_step hstep with
  | completed => exact absurd (congrFun (State.complete_inByte _ _) b) hchanged
  | kept | accepted | inLenStored => exact absurd rfl hchanged
  | inByteStored b' v hwrite hidle =>
    by_cases hb : b = b'
    · subst hb
      exact .inl ⟨v, hwrite, hidle⟩
    · exact absurd ((s.takeEvent.inByte_write b' b _).trans (if_neg hb)) hchanged
  | reset hreset => exact .inr hreset

/-! ### After DONE -/

theorem State.Inv.idle_of_done {s : State} (hInv : s.Inv) (hdone : s.status.done = true) : s.inFlight.valid = false := by
  rw [← hInv.busy_is_valid, ← Bool.not_eq_true]
  exact fun hbusy => hInv.busy_not_done ⟨hbusy, hdone⟩

/-- A poll that reads DONE = 1 finds no command in flight (40_command.md R75). -/
theorem idle_of_commandEnds {s t : State} (hInv : s.Inv) (hends : CommandEnds s t) :
    s.status.done = true ∧ t.status = s.status ∧ t.inFlight.valid = false := by
  obtain ⟨hread, hstep, v, hreply, hbit⟩ := hends
  cases (step_of_poll hread).symm.trans hstep
  cases hreply
  obtain ⟨-, hword, -⟩ := s.status.word_bits
  have hdone : s.status.done = true := hword.symm.trans hbit
  exact ⟨hdone, rfl, hInv.idle_of_done hdone⟩

/-- Settles O56: with DONE = 1 there is nothing to complete, and of the other effects only an acceptance and a reset touch
STATUS, the results or OUT_BUF. -/
theorem resultsStayUntilTheNextCommandOrReset : Obligations.ResultsStayUntilTheNextCommandOrReset := by
  refine ⟨fun s t => idle_of_commandEnds, fun s t hInv hdone hstep => ?_⟩
  cases stepEffect_of_step hstep with
  | completed _ hvalid => simp [hInv.idle_of_done hdone] at hvalid
  | kept | inLenStored | inByteStored => exact .inl ⟨rfl, rfl, fun _ => rfl⟩
  | accepted v hwrite => exact .inr (.inl ⟨v, hwrite⟩)
  | reset hreset => exact .inr (.inr hreset)

end Sys2Proof.Machine
end

