-- ==== Sys2Proof/Proofs/InvariantKept.lean ====
section
/-! The invariant of the block is kept by every step: each of the six effects keeps it, and a completion does because what
every command reports is consistent and fits OUT_BUF. -/

namespace Sys2Proof.Machine

/-! ### Consistent results -/

/-- What State.Inv says of the result registers (10_state.md R26 to R28). -/
structure Results.Consistent (r : Results) : Prop where
  syndrome_small : r.syndrome.toNat < 2 ^ 15
  detected_iff : r.flags.errDet = true ↔ r.syndrome ≠ 0
  corrected_iff : r.flags.errCor = r.flags.posValid
  position_valid : r.flags.posValid = true →
    r.errPos = r.syndrome ∧ 1 ≤ r.errPos.toNat ∧ r.errPos.toNat ≤ r.resN.toNat
  position_absent : r.flags.posValid = false → r.errPos = 0

/-- Where SYNDROME, FLAGS and ERR_POS are 0 the other registers do not matter. -/
theorem Results.consistent_of_no_error {r : Results} (hsyn : r.syndrome = 0) (hflags : r.flags = Flags.none)
    (herrPos : r.errPos = 0) : r.Consistent := by
  constructor <;> simp [hsyn, hflags, herrPos, Flags.none]

/-- done(...) is consistent where its flags fit its syndrome (43_decode.md R90). -/
theorem decDone_consistent {n syn : Nat} {f : Flags} (hn : n < 2 ^ 15) (hsyn : syn < 2 ^ 15)
    (hdetected : f.errDet = true ↔ syn ≠ 0) (hcorrected : f.errCor = f.posValid)
    (hposition : f.posValid = true → 1 ≤ syn ∧ syn ≤ n) (code : StatusCode) (r m outLen : Nat) (bs : List Byte) :
    (decDone code n r m syn f outLen bs).results.Consistent := by
  have hsynNat : (BitVec.ofNat 32 syn).toNat = syn := by
    rw [BitVec.toNat_ofNat]
    exact Nat.mod_eq_of_lt (by omega)
  have hnNat : (BitVec.ofNat 32 n).toNat = n := by
    rw [BitVec.toNat_ofNat]
    exact Nat.mod_eq_of_lt (by omega)
  have hzero : BitVec.ofNat 32 syn = 0 ↔ syn = 0 := by
    rw [← BitVec.toNat_inj, hsynNat]
    rfl
  constructor
  case syndrome_small => exact hsynNat.trans_lt hsyn
  case detected_iff => exact hdetected.trans hzero.not.symm
  case corrected_iff => exact hcorrected
  case position_valid =>
    intro hvalid
    obtain ⟨hpos, hle⟩ := hposition hvalid
    have herrPos : (decDone code n r m syn f outLen bs).results.errPos = BitVec.ofNat 32 syn := if_pos hvalid
    rw [herrPos, hsynNat]
    exact ⟨rfl, hpos, hle.trans_eq hnNat.symm⟩
  case position_absent =>
    intro habsent
    exact if_neg (Bool.eq_false_iff.mp habsent)

/-- The locator's flags fit its syndrome (43_decode.md R100). -/
theorem located_fits (syn : Nat) :
    ((Flags.located syn).errDet = true ↔ syn ≠ 0) ∧ (Flags.located syn).errCor = (Flags.located syn).posValid
      ∧ ((Flags.located syn).posValid = true → 1 ≤ syn) := by
  unfold Flags.located
  split_ifs with hzero
  · simp [hzero, Flags.none]
  · simp [hzero, Nat.one_le_iff_ne_zero]

theorem decLocated_consistent {n syn : Nat} (hn : n < 2 ^ 15) (hsyn : syn < 2 ^ 15) (r m : Nat) (c : Codeword) :
    (decLocated n r m c syn).results.Consistent := by
  obtain ⟨hdetected, hcorrected, hposition⟩ := located_fits syn
  obtain ⟨habove, hdone⟩ | ⟨hle, -, hdone⟩ | ⟨hle, -, hdone⟩ := decLocated_cases n r m c syn <;> rw [hdone]
  · exact decDone_consistent hn hsyn ⟨fun _ => by omega, fun _ => rfl⟩ rfl (fun h => absurd h (by decide)) ..
  · exact decDone_consistent hn hsyn hdetected hcorrected (fun h => ⟨hposition h, hle⟩) ..
  · exact decDone_consistent (f := (Flags.located syn).withMessage) hn hsyn hdetected hcorrected
      (fun h => ⟨hposition h, hle⟩) ..

theorem presentParityBits_le_of_lt_two_pow {n k : Nat} (hn : n ≠ 0) (hlt : n < 2 ^ k) : presentParityBits n ≤ k := by
  rwa [← Nat.not_lt, ← two_pow_le_iff_lt_presentParityBits (Nat.one_le_iff_ne_zero.mpr hn), Nat.not_le]

/-- The syndrome of a codeword that fits has at most 15 bits (10_state.md R26). -/
theorem syndrome_lt_two_pow_of_lt {n k : Nat} (hn : n ≠ 0) (hlt : n < 2 ^ k) (c : Codeword) :
    syndrome c n (presentParityBits n) < 2 ^ k := by
  obtain ⟨hsyn, -⟩ := syndrome_spec c n (presentParityBits n)
  exact hsyn.trans_le (Nat.pow_le_pow_right (by omega) (presentParityBits_le_of_lt_two_pow hn hlt))

theorem decCompletion_consistent {nMax : Nat} (hmax : nMax < 2 ^ 15) (n : Nat) (input : Nat → Bool) :
    (decCompletion nMax n input).results.Consistent := by
  obtain ⟨-, hdone⟩ | ⟨-, -, hdone⟩ | ⟨-, -, -, hdone⟩ | ⟨hfits, hne, -, hdone⟩ := decCompletion_cases nMax n input <;>
    rw [hdone]
  · exact Results.consistent_of_no_error rfl rfl rfl
  · exact Results.consistent_of_no_error rfl rfl rfl
  · exact Results.consistent_of_no_error rfl rfl rfl
  · have hn : n < 2 ^ 15 := hfits.trans_lt hmax
    exact decLocated_consistent hn (syndrome_lt_two_pow_of_lt hne hn _) ..

theorem encCompletion_consistent (kMax k : Nat) (input : Nat → Bool) :
    (encCompletion kMax k input).results.Consistent := by
  obtain ⟨-, hreject⟩ | ⟨-, -, -, hresults⟩ := encCompletion_cases kMax k input
  · rw [hreject]
    exact Results.consistent_of_no_error rfl rfl rfl
  · rw [hresults]
    exact Results.consistent_of_no_error rfl rfl rfl

/-! ### OUT_BUF holds what a completion writes -/

theorem encCompletion_out_length_le {kMax k : Nat} {input : Nat → Bool} {bs : List Byte}
    (hout : (encCompletion kMax k input).out = .bytes bs) : bs.length ≤ bytesFor (nMaxOf kMax) := by
  obtain ⟨-, hreject⟩ | ⟨hfits, -, hbytes, -⟩ := encCompletion_cases kMax k input
  · rw [hreject] at hout
    cases hout
  · cases hbytes.symm.trans hout
    rw [packStream_length, encCodeword_length]
    exact bytesFor_mono (encodedLength_le_nMaxOf hfits)

theorem decCompletion_out_length_le {nMax n : Nat} {input : Nat → Bool} {bs : List Byte}
    (hout : (decCompletion nMax n input).out = .bytes bs) : bs.length ≤ bytesFor nMax := by
  obtain hreject | ⟨-, hfits, bs', hbytes, hlen⟩ | ⟨-, -, hbytes⟩ := decCompletion_out_cases nMax n input
  · rw [hreject] at hout
    cases hout
  · cases hbytes.symm.trans hout
    unfold bytesFor
    omega
  · cases hbytes.symm.trans hout
    exact Nat.zero_le _

/-- What the block reports, whatever the command in flight (40_command.md R64). -/
theorem completion_consistent {s : State} (hwf : s.params.wf = true) : s.completion.results.Consistent := by
  unfold State.completion
  split
  · exact Results.consistent_of_no_error rfl rfl rfl
  · exact encCompletion_consistent ..
  · exact decCompletion_consistent (nMaxOf_lt_of_wf hwf) ..
  · exact Results.consistent_of_no_error rfl rfl rfl

theorem completion_out_length_le {s : State} {bs : List Byte} (hout : s.completion.out = .bytes bs) :
    bs.length ≤ instanceBufBytes s.params := by
  unfold State.completion at hout
  split at hout
  · cases hout
  · exact encCompletion_out_length_le hout
  · exact decCompletion_out_length_le hout
  · cases hout

/-! ### Each effect keeps the invariant -/

/-- The parts of the invariant that speak of the buffers and the draws, after a completion. -/
theorem State.Inv.complete_buffers {s : State} (hInv : s.Inv) {c : Completion}
    (hlength : ∀ bs, c.out = .bytes bs → bs.length ≤ instanceBufBytes s.params) :
    (s.complete c).outBuf.wf = true ∧ (s.complete c).outBuf.below (instanceBufBytes s.params) = true
      ∧ s.inEpoch < (s.complete c).draws ∧ (s.complete c).outEpoch < (s.complete c).draws := by
  simp only [State.complete_outBuf, State.complete_draws, State.complete_outEpoch]
  cases hout : c.out with
  | unchanged => exact ⟨hInv.out_canonical, hInv.out_within, hInv.in_epoch_used, hInv.out_epoch_used⟩
  | bytes bs =>
    exact ⟨Memory.fromBytes_wf 0 bs, Memory.fromBytes_below (hlength bs hout), Nat.lt_succ_of_lt hInv.in_epoch_used,
      Nat.lt_succ_self _⟩

theorem State.Inv.complete {s : State} (hInv : s.Inv) {c : Completion} (hresults : c.results.Consistent)
    (hlength : ∀ bs, c.out = .bytes bs → bs.length ≤ instanceBufBytes s.params) : (s.complete c).Inv := by
  obtain ⟨hcanonical, hwithin, hinEpoch, houtEpoch⟩ := hInv.complete_buffers hlength
  exact {
    params_legal := by rw [State.complete_params]; exact hInv.params_legal
    busy_is_valid := by rw [State.complete_inFlight, State.complete_status]
    busy_not_done := fun h => nomatch h.1
    code_when_not_done := fun h => nomatch h
    in_canonical := by rw [State.complete_inBuf]; exact hInv.in_canonical
    in_within := by rw [State.complete_inBuf, State.complete_params]; exact hInv.in_within
    out_canonical := hcanonical
    out_within := by rw [State.complete_params]; exact hwithin
    syndrome_small := hresults.syndrome_small
    detected_iff := hresults.detected_iff
    corrected_iff := hresults.corrected_iff
    position_valid := hresults.position_valid
    position_absent := hresults.position_absent
    in_epoch_used := by rw [State.complete_inEpoch]; exact hinEpoch
    out_epoch_used := houtEpoch }

/-- The model's own fields are free, as long as no draw is handed out twice. -/
theorem State.Inv.with_own_fields {s : State} (hInv : s.Inv) (pending : List Event) (reply : Reply) {draws : Nat}
    (hdraws : s.draws ≤ draws) : State.Inv { s with pending := pending, reply := reply, draws := draws } :=
  { hInv with
    in_epoch_used := hInv.in_epoch_used.trans_le hdraws
    out_epoch_used := hInv.out_epoch_used.trans_le hdraws }

theorem State.Inv.takeEvent {s : State} (hInv : s.Inv) : s.takeEvent.Inv :=
  hInv.with_own_fields s.pending.tail .nothing le_rfl

theorem State.Inv.accept {s : State} (hInv : s.Inv) (v : Word) : (s.accept v).Inv :=
  { hInv with
    busy_is_valid := rfl
    busy_not_done := fun h => nomatch h.2
    code_when_not_done := fun _ => rfl }

theorem State.Inv.with_inLen {s : State} (hInv : s.Inv) (v : Word) : State.Inv { s with inLen := v } := { hInv with }

theorem State.Inv.with_inByte {s : State} (hInv : s.Inv) {b : Nat} (hb : b < instanceBufBytes s.params) (v : Byte) :
    State.Inv { s with inBuf := s.inBuf.write b v } :=
  { hInv with
    in_canonical := Memory.write_wf hInv.in_canonical b v
    in_within := Memory.write_below hInv.in_within hb v }

/-- A reset is the reset state with the draws moved on (70_reset_and_hazards.md R128). -/
theorem State.Inv.assertReset {s : State} (hInv : s.Inv) : s.assertReset.Inv :=
  { resetStateMeetsTheInvariant s.params hInv.params_legal with
    in_epoch_used := Nat.lt_succ_self _
    out_epoch_used := Nat.lt_succ_self _ }

/-- Settles O59: one rule per effect of a step. -/
theorem everyStepKeepsTheInvariant : Obligations.EveryStepKeepsTheInvariant := by
  intro s t hInv hstep
  cases stepEffect_of_step hstep with
  | completed =>
    exact hInv.takeEvent.complete (completion_consistent hInv.params_legal) fun _ => completion_out_length_le
  | kept reply draws hdraws => exact hInv.with_own_fields _ reply hdraws
  | accepted v => exact hInv.takeEvent.accept v
  | inLenStored v => exact hInv.takeEvent.with_inLen v
  | inByteStored b v _ _ hb => exact hInv.takeEvent.with_inByte hb _
  | reset => exact hInv.takeEvent.assertReset

end Sys2Proof.Machine
end
